-- ==== Sys2Proof/Word.lean ====
section
/-! DEFINITION. The word types of the MCF: bytes, 16-bit fields and 32-bit bus words (spec 00 R12, R13). -/

namespace Sys2Proof

/-- A byte is 8 bits (R13). -/
abbrev Byte := BitVec 8

/-- A 16-bit field: a checksum, a transaction id, a TCP header field (R14). -/
abbrev Half := BitVec 16

/-- A bus word and a register are 32 bits wide (R10, `REG_WIDTH`). -/
abbrev Word := BitVec 32

end Sys2Proof
end

