-- ==== Sys2Proof/Config.lean ====
section
/-! DEFINITION. The parameters of the MCF: the values of spec 00 R10, the OPEN parameters of 92_eei_decisions.md, and the
free values of bytes that nothing has written (10 R52). -/

namespace Sys2Proof.Config

/-- `SWAP_MODE` (R10, R143): the granularity of the `Refin`/`Refout` swap. -/
inductive SwapMode where
  | byteInWord16
  | none
deriving DecidableEq, Repr

/-- `HOST_BUSERR` (R211): what the host does with a bus-error response. -/
inductive BusErrPolicy where
  | fault
  | ignore
deriving DecidableEq, Repr, Inhabited

/-- `REG_WIDTH` in bits (R10). -/
def regWidth : Nat := 32

/-- `ADDR_WIDTH` in bits (R10, R60). -/
def addrWidth : Nat := 12

/-- `MAX_PDU` in bytes (R10). UNVERIFIED (log 8): the spec takes 253 from general knowledge. -/
def maxPdu : Nat := 253

/-- `MAX_DATA = MAX_PDU - 1` (R10). -/
def maxData : Nat := maxPdu - 1

/-- `TXDATA_SIZE` in bytes (R10). -/
def txdataSize : Nat := 256

/-- `RDATA_SIZE` in bytes (R10). -/
def rdataSize : Nat := 256

/-- `TXBUF_SIZE` in bytes (R10). -/
def txbufSize : Nat := 1024

/-- `RXBUF_SIZE` in bytes (R10). -/
def rxbufSize : Nat := 1024

/-- `SWAP_MODE` as the spec takes it (R10, R143). -/
def swapMode : SwapMode := .byteInWord16

/-- `TID_RESET` (R10, R34). -/
def tidReset : Half := 0x0000

/-- OPEN parameter `HOST_BUSERR` (R211): no value is chosen (log 5). -/
opaque hostBusErr : BusErrPolicy

/-- OPEN parameter `MCF_BASE` (R60): the base of the slave port in the host's map; no value is chosen (log 6). -/
opaque mcfBase : Nat

/-- OPEN parameter `MCF_IRQ_LINE` (R220): the interrupt-controller input `irq` drives; no value is chosen (log 6). -/
opaque mcfIrqLine : Nat

/-- The byte drawn by draw number `n` when a buffer byte that nothing has written is read (R52): a free value (log 2). -/
opaque freeByte : Nat → Byte

end Sys2Proof.Config
end

