-- ==== Sys2Proof/Machine/Access.lean ====
section
/-! DEFINITION. What the outside world does to the MCF: host bus accesses and the reset input (spec 20 R60 to R62, 70 R240 to
R242), and what the slave port answers. -/

namespace Sys2Proof.Machine

/-- One event at the MCF's pins (R240). An access names its width in bits and a 12-bit byte offset. -/
inductive HostEvent where
  /-- A bus read (R60). -/
  | read (width : Nat) (off : BitVec 12)
  /-- A bus write of `data` (R60). -/
  | write (width : Nat) (off : BitVec 12) (data : Word)
  /-- `rst_n` goes low while the block is powered: a warm reset (R241). -/
  | resetLow
  /-- `rst_n` goes high (R242). -/
  | resetHigh
  /-- Power comes up with `rst_n` low (R241). -/
  | powerOn
deriving DecidableEq, Repr

/-- What the slave port answered to the last access it served (R9, R62, R240). -/
inductive Response where
  /-- No access has been answered yet. -/
  | noAccess
  /-- A read completed with this read data. -/
  | readData (v : Word)
  /-- A write completed. -/
  | written
  /-- The error response, with its read data (R62). -/
  | busError (rdata : Word)
deriving DecidableEq, Repr

/-- The access shape the slave port serves (R62): 32 bits wide, at an offset whose bits [1:0] are 0. -/
def wellShaped (width : Nat) (off : BitVec 12) : Bool :=
  width == Config.regWidth && off.toNat % 4 == 0

/-- A port event whose access, if it is one, has the served shape. -/
def HostEvent.wellShaped : HostEvent → Bool
  | .read w a => Machine.wellShaped w a
  | .write w a _ => Machine.wellShaped w a
  | .resetLow => true
  | .resetHigh => true
  | .powerOn => true

/-- A port event that is a bus access. -/
def HostEvent.isAccess : HostEvent → Bool
  | .read _ _ => true
  | .write _ _ _ => true
  | .resetLow => false
  | .resetHigh => false
  | .powerOn => false

/-- The port offset that a host physical address selects, or none outside the 4 KiB window at `MCF_BASE` (R60). -/
def portOffset (base addr : Nat) : Option (BitVec 12) :=
  if base ≤ addr ∧ addr < base + 2 ^ Config.addrWidth then some (BitVec.ofNat 12 (addr - base)) else none

end Sys2Proof.Machine
end

