-- ==== Sys2Proof/Syntax.lean ====
section
/-! DEFINITION. The commands of the MCF, one constructor per row of spec/opcode_table.json (30 R81). -/

namespace Sys2Proof

/-- A command (R81). Only CRC.BYTE and LRC.BYTE use the operand byte (R82); every other command takes its operands from
registers and buffers. Reserved opcodes (R83) are no commands: the decoder rejects them and the step runs R202. -/
inductive Instr where
  /-- NOP, opcode 0x00 (R200). -/
  | nop
  /-- CRC.INIT, opcode 0x01 (R123). -/
  | crcInit
  /-- CRC.BYTE b, opcode 0x02 (R124). -/
  | crcByte (b : Byte)
  /-- CRC.BUF, opcode 0x03 (R126). -/
  | crcBuf
  /-- LRC.INIT, opcode 0x04 (R128). -/
  | lrcInit
  /-- LRC.BYTE b, opcode 0x05 (R129). -/
  | lrcByte (b : Byte)
  /-- LRC.BUF, opcode 0x06 (R130). -/
  | lrcBuf
  /-- ENCODE, opcode 0x10 (R140). -/
  | encode
  /-- DECODE, opcode 0x11 (R150). -/
  | decode
  /-- VERIFY, opcode 0x12 (R170). -/
  | verify
  /-- SRESET, opcode 0xFF (R201). -/
  | sreset
deriving DecidableEq, Repr

end Sys2Proof
end

