-- ==== Sys2Proof/WellFormed.lean ====
section
/-! DEFINITION. Well-formedness: of a command (spec 30 R82) and of what a host presents at the port (20 R60, R62). -/

namespace Sys2Proof

/-- The operand byte of a command that uses one (R82). -/
def Instr.operand? : Instr → Option Byte
  | .crcByte b => some b
  | .lrcByte b => some b
  | .nop => none
  | .crcInit => none
  | .crcBuf => none
  | .lrcInit => none
  | .lrcBuf => none
  | .encode => none
  | .decode => none
  | .verify => none
  | .sreset => none

/-- A command's operand fits the 8-bit field OPERAND (R80, R82). The type `Byte` already says so: every command is
well-formed, and the checks that can fail are those of the host's accesses. -/
def Instr.wellFormed (i : Instr) : Bool :=
  match i.operand? with
  | some b => decide (b.toNat < 2 ^ 8)
  | none => true

/-- A list of port events in which every access has the served shape (R62). -/
def wellFormedTraffic (l : List Machine.HostEvent) : Bool :=
  l.all Machine.HostEvent.wellShaped

end Sys2Proof
end

