-- ==== Sys2Proof/Decode.lean ====
section
/-! DEFINITION. The command decoder, total on 32-bit words, and the encoder (spec 30 R80 to R85). -/

namespace Sys2Proof

/-- Why a command word is no command. -/
inductive DecodeReject where
  /-- A reserved opcode (R83); the step runs R202 for it. -/
  | reservedOpcode (op : Byte)
deriving DecidableEq, Repr

/-- OPCODE, `v[7:0]` (R80). -/
def opcodeField (w : Word) : Byte := BitVec.ofNat 8 w.toNat

/-- OPERAND, `v[15:8]` (R80, R82). -/
def operandField (w : Word) : Byte := BitVec.ofNat 8 (w.toNat / 256)

/-- A row of the opcode map (R81): a word is this command where `w & mask = pattern`. -/
structure OpcodeRow where
  mnemonic : String
  pattern : Word
  mask : Word
  build : Byte → Instr

/-- The opcode map (R81), row for row. -/
def opcodeRows : List OpcodeRow :=
  [⟨"NOP", 0x00000000, 0x000000FF, fun _ => .nop⟩,
   ⟨"CRC.INIT", 0x00000001, 0x000000FF, fun _ => .crcInit⟩,
   ⟨"CRC.BYTE", 0x00000002, 0x000000FF, .crcByte⟩,
   ⟨"CRC.BUF", 0x00000003, 0x000000FF, fun _ => .crcBuf⟩,
   ⟨"LRC.INIT", 0x00000004, 0x000000FF, fun _ => .lrcInit⟩,
   ⟨"LRC.BYTE", 0x00000005, 0x000000FF, .lrcByte⟩,
   ⟨"LRC.BUF", 0x00000006, 0x000000FF, fun _ => .lrcBuf⟩,
   ⟨"ENCODE", 0x00000010, 0x000000FF, fun _ => .encode⟩,
   ⟨"DECODE", 0x00000011, 0x000000FF, fun _ => .decode⟩,
   ⟨"VERIFY", 0x00000012, 0x000000FF, fun _ => .verify⟩,
   ⟨"SRESET", 0x000000FF, 0x000000FF, fun _ => .sreset⟩]

/-- The decoder: the row whose pattern the word matches, or the rejection of a reserved opcode (R84). -/
def decode (w : Word) : Except DecodeReject Instr :=
  match opcodeRows.find? (fun r => w &&& r.mask == r.pattern) with
  | some r => .ok (r.build (operandField w))
  | none => .error (.reservedOpcode (opcodeField w))

/-- The opcode of a command (R81). -/
def Instr.opcode : Instr → Byte
  | .nop => 0x00
  | .crcInit => 0x01
  | .crcByte _ => 0x02
  | .crcBuf => 0x03
  | .lrcInit => 0x04
  | .lrcByte _ => 0x05
  | .lrcBuf => 0x06
  | .encode => 0x10
  | .decode => 0x11
  | .verify => 0x12
  | .sreset => 0xFF

/-- The command word with the given fields (R80). -/
def commandWord (upper : Half) (operand opcode : Byte) : Word :=
  BitVec.ofNat 32 (upper.toNat * 65536 + operand.toNat * 256 + opcode.toNat)

/-- The word of a command whose ignored fields hold `upper` and `spare`: bits [31:16] are ignored (R80), and so is the
operand byte of a command that does not use it (R82). -/
def encodeWith (i : Instr) (upper : Half) (spare : Byte) : Word :=
  commandWord upper (i.operand?.getD spare) i.opcode

/-- The encoder: the command word with every ignored bit 0, as `CMD mnemonic b` writes it (R86). -/
def encode (i : Instr) : Word := encodeWith i 0 0

/-- The command read from a word given as a number of `nbits` bits, bit 0 the least significant; the bits above are 0. -/
def decodeTableWord (nbits w : Nat) : Option Instr :=
  match decode (BitVec.ofNat 32 (w % 2 ^ nbits)) with
  | .ok i => some i
  | .error _ => none

end Sys2Proof
end

