-- ==== Sys2Proof/Machine/State.lean ====
section
/-! DEFINITION. The state of the MCF (spec 10), the reasons a step can stop, and the state after reset (70 R241). -/

namespace Sys2Proof.Machine

/-- CTRL (R23), its non-reserved fields. -/
structure Ctrl where
  binding : BitVec 2
  refout : Bool
  refin : Bool
  vfc : Bool
  ieDone : Bool
  ieErr : Bool
deriving DecidableEq, Repr

/-- STATUS (R25), its non-reserved fields. -/
structure Status where
  result : BitVec 6
  done : Bool
  err : Bool
  exc : Bool
  reqv : Bool
  rspv : Bool
deriving DecidableEq, Repr

/-- A captured header: REQCAP (R36) or RSPHDR (R37). -/
structure Header where
  tid : Half
  fc : Byte
  unit : Byte
deriving DecidableEq, Repr

/-- EXCREG (R39). -/
structure ExcReg where
  fc : Byte
  code : Byte
deriving DecidableEq, Repr

/-- The registers of R21 that have storage, each at the width of its non-reserved bits (R48). ID is a constant (R22), CMD
holds nothing (R30) and LRC is computed from LRCSUM (R42). -/
structure Regs where
  ctrl : Ctrl
  status : Status
  unit : Byte
  fc : Byte
  txlen : BitVec 10
  tid : Half
  adulen : BitVec 11
  rxlen : BitVec 11
  reqcap : Header
  rsphdr : Header
  rdlen : BitVec 9
  excreg : ExcReg
  crc : Half
  lrcsum : Byte
deriving DecidableEq, Repr

/-- The names of the registers of R21. -/
inductive Reg where
  | id | ctrl | status | cmd | unit | fc | txlen | tid | adulen | rxlen | reqcap | rsphdr | rdlen | excreg | crc | lrcsum | lrc
deriving DecidableEq, Repr

/-- A binding (R4). -/
inductive Binding where
  | rtu
  | ascii
  | tcp
deriving DecidableEq, Repr

/-- The result codes of R212. -/
inductive Code where
  | ok | exception
  | errConfig | errTxlen | errRxlen | errBadcmd
  | frmTruncated | frmTooLong | frmCrc | frmLrc | frmDelim | frmHex | frmProto | frmLength | frmExcLen
  | corNotReady | corUnit | corTid | corFc
deriving DecidableEq, Repr

/-- The bytes of the four buffers that have been written since power-on, by port offset (R44 to R47, R61). An offset that is
not listed holds no specified value (R52). -/
abbrev Memory := List Host.Cell

/-- The canonical form of a memory: addresses strictly rising. -/
abbrev Memory.wf (m : Memory) : Prop := m.Pairwise (fun c d => c.1 < d.1)

/-- The state of the machine. -/
structure State where
  /-- The registers (R21). -/
  regs : Regs
  /-- The written bytes of TXDATA, RDATA, TXBUF and RXBUF (R44 to R47). -/
  mem : Memory
  /-- The level of the input `rst_n` (R240, R242). -/
  rstN : Bool
  /-- The model's own field: what the host has presented at the pins and the MCF has not served yet, oldest first (log 1). -/
  port : List HostEvent
  /-- The slave port's last response (R240, log 4). -/
  resp : Response
  /-- The model's own field: how many draws of a byte were made, the argument of the next free value (R52, log 2). -/
  draws : Nat
deriving DecidableEq, Repr

/-- Why a step stops. -/
inductive Fault where
  /-- Raised by the step when an access is presented while `rst_n` is low: such an access 'has no step' and the host is
  stuck (R242). Safe: the machine serves no such access. -/
  | accessDuringReset
  /-- Raised by the step after an error response where `HOST_BUSERR` is fault: the host stops on it (R211). Safe: the
  parameter is open, and the MCF itself goes on. -/
  | hostBusError (off : BitVec 12)
deriving DecidableEq, Repr

/-- Why a step gives no meaning. -/
inductive Refusal where
  /-- Raised by an arm of exec that has no meaning yet; no arm raises it. Safe. -/
  | notModelled (mnemonic : String)
deriving DecidableEq, Repr

/-- What a step or a command answers. -/
abbrev Result := Host.Outcome State Fault Refusal

/-- CTRL after reset, 0x10: RTU, no swap, VFC, interrupts disabled (R23, R241). -/
def Ctrl.reset : Ctrl :=
  { binding := 0, refout := false, refin := false, vfc := true, ieDone := false, ieErr := false }

/-- STATUS after reset, 0 (R25, R241). -/
def Status.reset : Status :=
  { result := 0, done := false, err := false, exc := false, reqv := false, rspv := false }

/-- A capture after reset, 0 (R241). -/
def Header.reset : Header := { tid := 0, fc := 0, unit := 0 }

/-- EXCREG after reset, and after a normal reply, 0 (R39, R241). -/
def ExcReg.zero : ExcReg := { fc := 0, code := 0 }

/-- The registers after any reset (R241). -/
def Regs.reset : Regs :=
  { ctrl := Ctrl.reset, status := Status.reset, unit := 0, fc := 0, txlen := 0, tid := Config.tidReset, adulen := 0,
    rxlen := 0, reqcap := Header.reset, rsphdr := Header.reset, rdlen := 0, excreg := ExcReg.zero, crc := 0xFFFF, lrcsum := 0 }

/-- The machine right after the power-on reset: registers at their reset values, no buffer byte written (R51, R241), `rst_n`
high again (R242), nothing presented at the port. -/
def State.reset : State :=
  { regs := Regs.reset, mem := [], rstN := true, port := [], resp := .noAccess, draws := 0 }

end Sys2Proof.Machine
end

