-- ==== Sys2Proof/Machine/Flags.lean ====
section
/-! DEFINITION. STATUS and everything computed from its flags: the result codes, `finish`, the W1C write and `irq` (spec 10 R25 to
R29, 60 R212, R220). -/

namespace Sys2Proof.Machine

/-- The number of a result code (R212). -/
def Code.num : Code → BitVec 6
  | .ok => 0x00
  | .exception => 0x01
  | .errConfig => 0x02
  | .errTxlen => 0x03
  | .errRxlen => 0x04
  | .errBadcmd => 0x05
  | .frmTruncated => 0x10
  | .frmTooLong => 0x11
  | .frmCrc => 0x12
  | .frmLrc => 0x13
  | .frmDelim => 0x14
  | .frmHex => 0x15
  | .frmProto => 0x16
  | .frmLength => 0x17
  | .frmExcLen => 0x18
  | .corNotReady => 0x20
  | .corUnit => 0x21
  | .corTid => 0x22
  | .corFc => 0x23

/-- `finish(code)` (R27): RESULT and DONE written, ERR set by a code of 0x02 or more and otherwise kept. -/
def Status.finish (st : Status) (c : Code) : Status :=
  { st with result := c.num, done := true, err := st.err || decide (2 ≤ c.num.toNat) }

/-- A write of `v` to STATUS (R26): a 1 in bit 8 clears DONE, a 1 in bit 9 clears ERR. -/
def Status.w1c (st : Status) (v : Word) : Status :=
  { st with done := st.done && !v.getLsbD 8, err := st.err && !v.getLsbD 9 }

/-- The level of the interrupt output (R220). -/
def irq (s : State) : Bool :=
  (s.regs.ctrl.ieDone && s.regs.status.done) || (s.regs.ctrl.ieErr && s.regs.status.err)

/-- The level `irq` puts on input `line` of an interrupt controller: only `MCF_IRQ_LINE` is driven (R220). -/
def irqAtLine (line : Nat) (s : State) : Bool := line == Config.mcfIrqLine && irq s

/-- Bit 7 of a function code marks an exception reply (R88, R160). -/
def isException (fc : Byte) : Bool := fc.getLsbD 7

/-- `fc & 0x7F`, the function code an exception reply answers (R88, R173). -/
def maskFc (fc : Byte) : Byte := fc &&& 0x7F

end Sys2Proof.Machine
end

