-- ==== Sys2Proof/Machine/Operands.lean ====
section
/-! DEFINITION. Operand forms: byte orders (spec 00 R14), register layouts (10 R22 to R43), the data swap (41 R143), hex
characters (30 R94, R95), the binding and its frame lengths (00 R11). -/

namespace Sys2Proof.Machine

/-! ### Byte orders (R14) -/

def lo8 (v : Half) : Byte := BitVec.ofNat 8 v.toNat

def hi8 (v : Half) : Byte := BitVec.ofNat 8 (v.toNat / 256)

/-- Most significant byte first (R14). -/
def be16 (v : Half) : List Byte := [hi8 v, lo8 v]

/-- Least significant byte first (R14). -/
def le16 (v : Half) : List Byte := [lo8 v, hi8 v]

/-- The 16-bit value with the given high and low byte. -/
def ofBytes (hi lo : Byte) : Half := BitVec.ofNat 16 (hi.toNat * 256 + lo.toNat)

/-- Element `i` of a frame; every use is at an index inside it. -/
def at8 (s : List Byte) (i : Nat) : Byte := s.getD i 0

/-- `s[i..j)` (R13). -/
def slice (s : List Byte) (i j : Nat) : List Byte := (s.drop i).take (j - i)

/-- `u16be(s, i)` (R14). -/
def u16be (s : List Byte) (i : Nat) : Half := ofBytes (at8 s i) (at8 s (i + 1))

/-- The bus word of four bytes, the first in the low bits (R63). -/
def wordOfBytes (b0 b1 b2 b3 : Byte) : Word :=
  BitVec.ofNat 32 (b0.toNat + b1.toNat * 2 ^ 8 + b2.toNat * 2 ^ 16 + b3.toNat * 2 ^ 24)

/-- Byte `k` of a bus word, `v[8k+7:8k]` (R63). -/
def byteOfWord (v : Word) (k : Nat) : Byte := BitVec.ofNat 8 (v.toNat / 2 ^ (8 * k))

/-- The four bytes of a bus word in buffer order (R63). -/
def bytesOfWord (v : Word) : List Byte := [byteOfWord v 0, byteOfWord v 1, byteOfWord v 2, byteOfWord v 3]

/-! ### Register layouts -/

/-- ID (R22). -/
def idWord : Word := 0x4D430001

/-- CTRL as software reads it (R23). -/
def Ctrl.toWord (c : Ctrl) : Word :=
  BitVec.ofNat 32 (c.binding.toNat + c.refout.toNat * 4 + c.refin.toNat * 8 + c.vfc.toNat * 16 + c.ieDone.toNat * 32
    + c.ieErr.toNat * 64)

/-- CTRL after a write of `v`: every field stores the value written (R23). -/
def Ctrl.ofWord (v : Word) : Ctrl :=
  { binding := v.setWidth 2, refout := v.getLsbD 2, refin := v.getLsbD 3, vfc := v.getLsbD 4, ieDone := v.getLsbD 5,
    ieErr := v.getLsbD 6 }

/-- STATUS as software reads it (R25). -/
def Status.toWord (st : Status) : Word :=
  BitVec.ofNat 32 (st.result.toNat + st.done.toNat * 2 ^ 8 + st.err.toNat * 2 ^ 9 + st.exc.toNat * 2 ^ 10
    + st.reqv.toNat * 2 ^ 11 + st.rspv.toNat * 2 ^ 12)

/-- REQCAP and RSPHDR as software reads them (R36, R37). -/
def Header.toWord (h : Header) : Word :=
  BitVec.ofNat 32 (h.unit.toNat + h.fc.toNat * 2 ^ 8 + h.tid.toNat * 2 ^ 16)

/-- EXCREG as software reads it (R39). -/
def ExcReg.toWord (e : ExcReg) : Word := BitVec.ofNat 32 (e.code.toNat + e.fc.toNat * 2 ^ 8)

/-- LRC, computed from LRCSUM (R42). -/
def lrcOfSum (sum : Byte) : Byte := BitVec.ofNat 8 ((256 - sum.toNat) % 256)

/-! ### Bindings -/

/-- The binding CTRL.BINDING names; 3 is reserved and names none (R23). -/
def Ctrl.bindingOf (c : Ctrl) : Option Binding :=
  match c.binding.toNat with
  | 0 => some .rtu
  | 1 => some .ascii
  | 2 => some .tcp
  | _ => none

/-- `MINADU(b)` (R11). -/
def minAdu : Binding → Nat
  | .rtu => 4
  | .ascii => 9
  | .tcp => 8

/-- `MAXADU(b)` (R11). -/
def maxAdu : Binding → Nat
  | .rtu => Config.maxPdu + 3
  | .ascii => 2 * (Config.maxPdu + 2) + 3
  | .tcp => Config.maxPdu + 7

/-! ### The data swap (R142, R143, R162) -/

/-- `swap16` (R143): the two bytes of each 16-bit word change places, a trailing odd byte stays. -/
def swap16 : List Byte → List Byte
  | a :: b :: s => b :: a :: swap16 s
  | [a] => [a]
  | [] => []

/-- The swap of the configured `SWAP_MODE` (R143). -/
def swapData (mode : Config.SwapMode) (s : List Byte) : List Byte :=
  match mode with
  | .byteInWord16 => swap16 s
  | .none => s

/-- The data field after a swap that a CTRL flag asks for (R142, R162). -/
def swapIf (flag : Bool) (s : List Byte) : List Byte :=
  if flag then swapData Config.swapMode s else s

/-! ### Hex characters (R94, R95) -/

/-- `digit(n)`, uppercase (R94). -/
def hexDigit (n : Nat) : Byte := if n ≤ 9 then BitVec.ofNat 8 (0x30 + n) else BitVec.ofNat 8 (0x41 + (n - 10))

/-- `hexU` (R94): two characters per byte, high nibble first. -/
def hexU : List Byte → List Byte
  | [] => []
  | b :: s => hexDigit (b.toNat / 16) :: hexDigit (b.toNat % 16) :: hexU s

/-- `value(ch)` of an uppercase hex digit; any other character has none, the lowercase letters among them (R95). -/
def hexValue (ch : Byte) : Option Nat :=
  if 0x30 ≤ ch.toNat ∧ ch.toNat ≤ 0x39 then some (ch.toNat - 0x30)
  else if 0x41 ≤ ch.toNat ∧ ch.toNat ≤ 0x46 then some (ch.toNat - 0x41 + 10)
  else none

/-- `unhexU` (R95): defined on an even number of hex digits only. -/
def unhexU : List Byte → Option (List Byte)
  | [] => some []
  | [_] => none
  | h :: l :: s =>
    match hexValue h, hexValue l, unhexU s with
    | some x, some y, some t => some (BitVec.ofNat 8 (x * 16 + y) :: t)
    | _, _, _ => none

end Sys2Proof.Machine
end

