-- ==== Sys2Proof/Machine/Ops.lean ====
section
/-! DEFINITION. The shared operations over buffers and registers: reading and writing bytes, the register map, `finish` on a
state, the resets and the error response (spec 10 R21, R27, R44 to R52; 20 R60 to R65; 60 R211; 70 R241).

The MCF takes no trap (60 R219): no register saves a pc, nothing redirects control and nothing returns. The one shared way a
command reports what happened is `State.finish` (10 R27). -/

namespace Sys2Proof.Machine

/-! ### Memory -/

/-- The byte at an offset, if it was written since power-on. -/
def Memory.lookup : Memory → Nat → Option Byte
  | [], _ => none
  | (x, v) :: m, a => if a = x then some v else Memory.lookup m a

/-- Write one byte, keeping the canonical form. -/
def Memory.store : Memory → Nat → Byte → Memory
  | [], a, b => [(a, b)]
  | (x, v) :: m, a, b =>
    if a < x then (a, b) :: (x, v) :: m
    else if a = x then (a, b) :: m
    else (x, v) :: Memory.store m a b

/-- Write bytes at rising offsets from `a`. -/
def Memory.storeBytes : Memory → Nat → List Byte → Memory
  | m, _, [] => m
  | m, a, b :: bs => Memory.storeBytes (Memory.store m a b) (a + 1) bs

/-! ### Buffers (R44 to R47, R61) -/

def txdataBase : Nat := 0x400
def rdataBase : Nat := 0x500
def txbufBase : Nat := 0x800
def rxbufBase : Nat := 0xC00

/-- What a port offset names (R61). -/
inductive Region where
  | reg (r : Reg)
  | txdata
  | rdata
  | txbuf
  | rxbuf
  | reserved
deriving DecidableEq, Repr

/-- The byte at an offset as draw number `n` reads it: its value, or a free value where nothing was written (R52). -/
def readByte (m : Memory) (a n : Nat) : Byte := (Memory.lookup m a).getD (Config.freeByte n)

/-- The `n` bytes from offset `a` on, each read with a draw number of its own. -/
def readBytes (m : Memory) (draws a : Nat) : Nat → List Byte
  | 0 => []
  | n + 1 => readByte m a draws :: readBytes m (draws + 1) (a + 1) n

/-- The operand bytes B[0..n) of the buffer at `base` (R44, R47). -/
def State.operandBytes (s : State) (base n : Nat) : List Byte := readBytes s.mem s.draws base n

/-- The state after `n` buffer bytes were read: their draw numbers are used up, nothing else changes. -/
def State.spend (s : State) (n : Nat) : State := { s with draws := s.draws + n }

/-! ### The register map (R21) -/

/-- The offset of a register (R21). -/
def Reg.offset : Reg → Nat
  | .id => 0x000
  | .ctrl => 0x004
  | .status => 0x008
  | .cmd => 0x00C
  | .unit => 0x010
  | .fc => 0x014
  | .txlen => 0x018
  | .tid => 0x01C
  | .adulen => 0x020
  | .rxlen => 0x024
  | .reqcap => 0x028
  | .rsphdr => 0x02C
  | .rdlen => 0x030
  | .excreg => 0x034
  | .crc => 0x038
  | .lrcsum => 0x03C
  | .lrc => 0x040

/-- The registers in the order of R21. -/
def Reg.all : List Reg :=
  [.id, .ctrl, .status, .cmd, .unit, .fc, .txlen, .tid, .adulen, .rxlen, .reqcap, .rsphdr, .rdlen, .excreg, .crc, .lrcsum, .lrc]

/-- What an aligned offset names (R61). -/
def regionAt (off : Nat) : Region :=
  if 0x400 ≤ off ∧ off ≤ 0x4FF then .txdata
  else if 0x500 ≤ off ∧ off ≤ 0x5FF then .rdata
  else if 0x800 ≤ off ∧ off ≤ 0xBFF then .txbuf
  else if 0xC00 ≤ off ∧ off ≤ 0xFFF then .rxbuf
  else match Reg.all.find? (fun r => r.offset == off) with
    | some r => .reg r
    | none => .reserved

/-- A read of a register: its fields, 0 in reserved bits (R64). CMD reads 0 (R30). -/
def Regs.read (g : Regs) : Reg → Word
  | .id => idWord
  | .ctrl => g.ctrl.toWord
  | .status => g.status.toWord
  | .cmd => 0
  | .unit => g.unit.setWidth 32
  | .fc => g.fc.setWidth 32
  | .txlen => g.txlen.setWidth 32
  | .tid => g.tid.setWidth 32
  | .adulen => g.adulen.setWidth 32
  | .rxlen => g.rxlen.setWidth 32
  | .reqcap => g.reqcap.toWord
  | .rsphdr => g.rsphdr.toWord
  | .rdlen => g.rdlen.setWidth 32
  | .excreg => g.excreg.toWord
  | .crc => g.crc.setWidth 32
  | .lrcsum => g.lrcsum.setWidth 32
  | .lrc => (lrcOfSum g.lrcsum).setWidth 32

/-- A write of `v` to a register other than CMD: a RW register stores its non-reserved bits, STATUS is W1C, a RO register
ignores the write (R64). A write of CMD issues a command (R30) and is no plain write. -/
def Regs.write (g : Regs) (r : Reg) (v : Word) : Regs :=
  match r with
  | .ctrl => { g with ctrl := Ctrl.ofWord v }
  | .status => { g with status := g.status.w1c v }
  | .unit => { g with unit := v.setWidth 8 }
  | .fc => { g with fc := v.setWidth 8 }
  | .txlen => { g with txlen := v.setWidth 10 }
  | .tid => { g with tid := v.setWidth 16 }
  | .rxlen => { g with rxlen := v.setWidth 11 }
  | .crc => { g with crc := v.setWidth 16 }
  | .lrcsum => { g with lrcsum := v.setWidth 8 }
  | .id => g
  | .cmd => g
  | .adulen => g
  | .reqcap => g
  | .rsphdr => g
  | .rdlen => g
  | .excreg => g
  | .lrc => g

/-! ### Bus accesses of the served shape (R63 to R65) -/

/-- The word at offset `off` of a buffer, little-endian (R63). -/
def State.bufferWord (s : State) (off : Nat) : Word :=
  wordOfBytes (readByte s.mem off s.draws) (readByte s.mem (off + 1) (s.draws + 1)) (readByte s.mem (off + 2) (s.draws + 2))
    (readByte s.mem (off + 3) (s.draws + 3))

/-- A read of an aligned word (R63, R64): the read data goes to the port; a buffer read uses up four draw numbers. -/
def State.busRead (s : State) (off : Nat) : State :=
  match regionAt off with
  | .reg r => { s with resp := .readData (s.regs.read r) }
  | .txdata => { s.spend 4 with resp := .readData (s.bufferWord off) }
  | .rdata => { s.spend 4 with resp := .readData (s.bufferWord off) }
  | .txbuf => { s.spend 4 with resp := .readData (s.bufferWord off) }
  | .rxbuf => { s.spend 4 with resp := .readData (s.bufferWord off) }
  | .reserved => { s with resp := .readData 0 }

/-- A write of an aligned word anywhere but CMD (R63, R64): TXDATA and RXBUF store it, RDATA and TXBUF ignore it, a reserved
offset has no effect (R48). -/
def State.busWrite (s : State) (off : Nat) (v : Word) : State :=
  match regionAt off with
  | .reg r => { s with regs := s.regs.write r v, resp := .written }
  | .txdata => { s with mem := Memory.storeBytes s.mem off (bytesOfWord v), resp := .written }
  | .rxbuf => { s with mem := Memory.storeBytes s.mem off (bytesOfWord v), resp := .written }
  | .rdata => { s with resp := .written }
  | .txbuf => { s with resp := .written }
  | .reserved => { s with resp := .written }

/-- The error response (R62, R211): nothing changes but the port's answer, whose read data is 0. -/
def State.errorResponse (s : State) : State := { s with resp := .busError 0 }

/-! ### Reporting a result -/

/-- `finish(code)` on the machine (R27). -/
def State.finish (s : State) (c : Code) : State :=
  { s with regs := { s.regs with status := s.regs.status.finish c } }

/-! ### Reset (R241) -/

/-- Every register at its reset value, the buffers kept: what SRESET and a warm reset do (R201, R241). -/
def State.resetRegs (s : State) : State := { s with regs := Regs.reset }

/-- `rst_n` goes low: registers reset, buffers kept, no access served until it is high (R241, R242). -/
def State.warmReset (s : State) : State := { s.resetRegs with rstN := false }

/-- Power-on with `rst_n` low: registers reset, buffer contents unspecified, so nothing counts as written (R51, R241). -/
def State.powerOn (s : State) : State := { s.resetRegs with mem := [], rstN := false }

/-- `rst_n` goes high: ready for the first access (R242). -/
def State.releaseReset (s : State) : State := { s with rstN := true }

end Sys2Proof.Machine
end

