-- ==== Sys2Proof/Machine/Control.lean ====
section
/-! DEFINITION. The control commands NOP and SRESET, and the behaviour of every reserved opcode (spec 42). -/

namespace Sys2Proof.Machine

/-- NOP (R200): no state changes. -/
def execNop (s : State) : Result := .next s

/-- SRESET (R201): every register to its reset value, the buffers unchanged; it does not call `finish`. -/
def execSreset (s : State) : Result := .next s.resetRegs

/-- A command word with a reserved opcode (R202): `finish(ERR_BADCMD)` and nothing else. -/
def execReserved (s : State) : Result := .next (s.finish .errBadcmd)

end Sys2Proof.Machine
end

