-- ==== Sys2Proof/Machine/Checksum.lean ====
section
/-! DEFINITION. The checksum functions and the checksum commands (spec 40). -/

namespace Sys2Proof.Machine

/-! ### The checksum functions -/

/-- One bit of `crc16_step` (R120): shift right, and fold in 0xA001 when a 1 was shifted out. -/
def crcBit (c : Half) : Half := if c.getLsbD 0 then (c >>> 1) ^^^ 0xA001 else c >>> 1

/-- `n` bits of `crc16_step`. -/
def crcBits : Nat → Half → Half
  | 0, c => c
  | n + 1, c => crcBits n (crcBit c)

/-- `crc16_step(c, b)` (R120). -/
def crcStep (c : Half) (b : Byte) : Half := crcBits 8 (c ^^^ b.setWidth 16)

/-- The CRC register after a byte sequence is folded into it (R126). -/
def crcFold (c : Half) (s : List Byte) : Half := s.foldl crcStep c

/-- `crc16(s)` (R121): initial value 0xFFFF, no final XOR. -/
def crc16 (s : List Byte) : Half := crcFold 0xFFFF s

/-- The sum of a byte sequence, not reduced (R122). -/
def byteSum (s : List Byte) : Nat := (s.map BitVec.toNat).sum

/-- `lrc8(s)` (R122). -/
def lrc8 (s : List Byte) : Byte := BitVec.ofNat 8 ((256 - byteSum s % 256) % 256)

/-! ### CRC commands -/

/-- CRC.INIT (R123). -/
def execCrcInit (s : State) : Result := .next { s with regs := { s.regs with crc := 0xFFFF } }

/-- CRC.BYTE b (R124). -/
def execCrcByte (b : Byte) (s : State) : Result := .next { s with regs := { s.regs with crc := crcStep s.regs.crc b } }

/-- CRC.BUF (R126): ERR_RXLEN where RXLEN passes the buffer's end, else RXBUF[0..RXLEN) is folded into CRC. -/
def execCrcBuf (s : State) : Result :=
  if Config.rxbufSize < s.regs.rxlen.toNat then .next (s.finish .errRxlen)
  else
    let bytes := s.operandBytes rxbufBase s.regs.rxlen.toNat
    let t := s.spend s.regs.rxlen.toNat
    .next (State.finish { t with regs := { t.regs with crc := crcFold t.regs.crc bytes } } .ok)

/-! ### LRC commands -/

/-- LRC.INIT (R128). -/
def execLrcInit (s : State) : Result := .next { s with regs := { s.regs with lrcsum := 0 } }

/-- LRC.BYTE b (R129): the sum wraps modulo 256. -/
def execLrcByte (b : Byte) (s : State) : Result :=
  .next { s with regs := { s.regs with lrcsum := BitVec.ofNat 8 (s.regs.lrcsum.toNat + b.toNat) } }

/-- LRC.BUF (R130): ERR_RXLEN where RXLEN passes the buffer's end, else the bytes RXBUF[0..RXLEN) are added to LRCSUM. -/
def execLrcBuf (s : State) : Result :=
  if Config.rxbufSize < s.regs.rxlen.toNat then .next (s.finish .errRxlen)
  else
    let bytes := s.operandBytes rxbufBase s.regs.rxlen.toNat
    let t := s.spend s.regs.rxlen.toNat
    .next (State.finish { t with regs := { t.regs with lrcsum := BitVec.ofNat 8 (t.regs.lrcsum.toNat + byteSum bytes) } } .ok)

end Sys2Proof.Machine
end

