-- ==== Sys2Proof/Machine/Framing.lean ====
section
/-! DEFINITION. The ADU formats (spec 30 R90 to R96) and the framing commands ENCODE, DECODE and VERIFY (41). -/

namespace Sys2Proof.Machine

/-! ### ADU assembly -/

/-- The RTU ADU (R90, R144). -/
def rtuAdu (u f : Byte) (d : List Byte) : List Byte := [u, f] ++ d ++ le16 (crc16 ([u, f] ++ d))

/-- The ASCII ADU (R91, R145). -/
def asciiAdu (u f : Byte) (d : List Byte) : List Byte :=
  [0x3A] ++ hexU ([u, f] ++ d ++ [lrc8 ([u, f] ++ d)]) ++ [0x0D, 0x0A]

/-- The TCP ADU (R92, R146). -/
def tcpAdu (t : Half) (u f : Byte) (d : List Byte) : List Byte :=
  be16 t ++ be16 0x0000 ++ be16 (BitVec.ofNat 16 (d.length + 2)) ++ [u, f] ++ d

/-- The ADU of a binding; only TCP carries the transaction id. -/
def aduOf (b : Binding) (t : Half) (u f : Byte) (d : List Byte) : List Byte :=
  match b with
  | .rtu => rtuAdu u f d
  | .ascii => asciiAdu u f d
  | .tcp => tcpAdu t u f d

/-- The transaction id a request is captured with: TID under TCP, 0x0000 under RTU and ASCII (R36). -/
def captureTid (b : Binding) (t : Half) : Half :=
  match b with
  | .rtu => 0x0000
  | .ascii => 0x0000
  | .tcp => t

/-- TID after a successful ENCODE: advanced modulo 65536 under TCP only (R146). -/
def nextTid (b : Binding) (t : Half) : Half :=
  match b with
  | .rtu => t
  | .ascii => t
  | .tcp => BitVec.ofNat 16 (t.toNat + 1)

/-! ### ENCODE -/

/-- ENCODE ending in an error (R148): RSPV and REQV cleared, the code reported, nothing else. -/
def State.encodeFail (s : State) (c : Code) : State :=
  State.finish { s with regs := { s.regs with status := { s.regs.status with rspv := false, reqv := false } } } c

/-- ENCODE of the data field `d` (R147): the ADU into TXBUF, its length, the capture and TID. -/
def State.encodeAdu (s : State) (b : Binding) (d : List Byte) : State :=
  let adu := aduOf b s.regs.tid s.regs.unit s.regs.fc d
  State.finish
    { s with
      mem := Memory.storeBytes s.mem txbufBase adu
      regs := { s.regs with
        adulen := BitVec.ofNat 11 adu.length
        reqcap := { tid := captureTid b s.regs.tid, fc := s.regs.fc, unit := s.regs.unit }
        tid := nextTid b s.regs.tid
        status := { s.regs.status with rspv := false, reqv := true } } }
    .ok

/-- ENCODE (R140). -/
def execEncode (s : State) : Result :=
  match s.regs.ctrl.bindingOf with
  | none => .next (s.encodeFail .errConfig)
  | some b =>
    if Config.maxData < s.regs.txlen.toNat then .next (s.encodeFail .errTxlen)
    else
      let d := s.operandBytes txdataBase s.regs.txlen.toNat
      .next ((s.spend s.regs.txlen.toNat).encodeAdu b (swapIf s.regs.ctrl.refout d))

/-! ### Reply parsing -/

/-- What a parsed reply carries (R150): unit id, function code, data field and transaction id. -/
structure Frame where
  unit : Byte
  fc : Byte
  data : List Byte
  tid : Half
deriving DecidableEq, Repr

/-- `parse_RTU(R)` (R151). -/
def parseRtu (r : List Byte) : Except Code Frame :=
  if crc16 (slice r 0 (r.length - 2)) ≠ ofBytes (at8 r (r.length - 1)) (at8 r (r.length - 2)) then .error .frmCrc
  else .ok { unit := at8 r 0, fc := at8 r 1, data := slice r 2 (r.length - 2), tid := 0x0000 }

/-- `parse_ASCII(R)` (R152). -/
def parseAscii (r : List Byte) : Except Code Frame :=
  if at8 r 0 ≠ 0x3A then .error .frmDelim
  else if at8 r (r.length - 2) ≠ 0x0D ∨ at8 r (r.length - 1) ≠ 0x0A then .error .frmDelim
  else
    match unhexU (slice r 1 (r.length - 2)) with
    | none => .error .frmHex
    | some bytes =>
      if byteSum bytes % 256 ≠ 0 then .error .frmLrc
      else .ok { unit := at8 bytes 0, fc := at8 bytes 1, data := slice bytes 2 (bytes.length - 1), tid := 0x0000 }

/-- `parse_TCP(R)` (R153). -/
def parseTcp (r : List Byte) : Except Code Frame :=
  if u16be r 2 ≠ 0x0000 then .error .frmProto
  else if (u16be r 4).toNat ≠ r.length - 6 then .error .frmLength
  else .ok { unit := at8 r 6, fc := at8 r 7, data := slice r 8 r.length, tid := u16be r 0 }

/-- The parser of a binding (R150). -/
def parseAdu (b : Binding) (r : List Byte) : Except Code Frame :=
  match b with
  | .rtu => parseRtu r
  | .ascii => parseAscii r
  | .tcp => parseTcp r

/-! ### DECODE -/

/-- DECODE ending in an error (R165): RSPV and EXC cleared, the code reported, nothing else. -/
def State.decodeFail (s : State) (c : Code) : State :=
  State.finish { s with regs := { s.regs with status := { s.regs.status with rspv := false, exc := false } } } c

/-- DECODE of a well-formed exception reply with exception code `code` (R164). -/
def State.latchException (s : State) (fr : Frame) (code : Byte) : State :=
  State.finish
    { s with
      mem := Memory.storeBytes s.mem rdataBase [code]
      regs := { s.regs with
        rsphdr := { tid := fr.tid, fc := fr.fc, unit := fr.unit }
        rdlen := 1
        excreg := { fc := maskFc fr.fc, code := code }
        status := { s.regs.status with rspv := true, exc := true } } }
    .exception

/-- DECODE of a normal reply whose data field, swapped where CTRL.REFIN asks for it, is `d` (R163). -/
def State.latchReply (s : State) (fr : Frame) (d : List Byte) : State :=
  State.finish
    { s with
      mem := Memory.storeBytes s.mem rdataBase d
      regs := { s.regs with
        rsphdr := { tid := fr.tid, fc := fr.fc, unit := fr.unit }
        rdlen := BitVec.ofNat 9 d.length
        excreg := ExcReg.zero
        status := { s.regs.status with rspv := true, exc := false } } }
    .ok

/-- DECODE of the received bytes `r` once their number is in range: the binding's checks, then exception detection (R160),
then the length of an exception reply's data field (R161). -/
def State.decodeFrame (s : State) (b : Binding) (r : List Byte) : State :=
  match parseAdu b r with
  | .error c => s.decodeFail c
  | .ok fr =>
    if isException fr.fc then
      match fr.data with
      | [code] => s.latchException fr code
      | _ => s.decodeFail .frmExcLen
    else s.latchReply fr (swapIf s.regs.ctrl.refin fr.data)

/-- DECODE (R150). -/
def execDecode (s : State) : Result :=
  match s.regs.ctrl.bindingOf with
  | none => .next (s.decodeFail .errConfig)
  | some b =>
    if s.regs.rxlen.toNat < minAdu b then .next (s.decodeFail .frmTruncated)
    else if maxAdu b < s.regs.rxlen.toNat then .next (s.decodeFail .frmTooLong)
    else .next ((s.spend s.regs.rxlen.toNat).decodeFrame b (s.operandBytes rxbufBase s.regs.rxlen.toNat))

/-! ### VERIFY -/

/-- The result of VERIFY (R170): the first check that fails, in the order R218 gives. -/
def verifyCode (g : Regs) : Code :=
  match g.ctrl.bindingOf with
  | none => .errConfig
  | some b =>
    if g.status.reqv = false ∨ g.status.rspv = false then .corNotReady
    else if g.rsphdr.unit ≠ g.reqcap.unit then .corUnit
    else if b = .tcp ∧ g.rsphdr.tid ≠ g.reqcap.tid then .corTid
    else if (b ≠ .tcp ∨ g.ctrl.vfc = true) ∧ maskFc g.rsphdr.fc ≠ g.reqcap.fc then .corFc
    else .ok

/-- VERIFY (R170). -/
def execVerify (s : State) : Result := .next (s.finish (verifyCode s.regs))

end Sys2Proof.Machine
end

