-- ==== Sys2Proof/Machine/Dispatch.lean ====
section
/-! DEFINITION. The dispatch of commands: one arm per constructor of Instr. -/

namespace Sys2Proof.Machine

/-- What a command does to the machine. -/
def exec (i : Instr) (s : State) : Host.Outcome State Fault Refusal :=
  match i with
  | .nop => Sys2Proof.Machine.execNop s
  | .crcInit => Sys2Proof.Machine.execCrcInit s
  | .crcByte b => Sys2Proof.Machine.execCrcByte b s
  | .crcBuf => Sys2Proof.Machine.execCrcBuf s
  | .lrcInit => Sys2Proof.Machine.execLrcInit s
  | .lrcByte b => Sys2Proof.Machine.execLrcByte b s
  | .lrcBuf => Sys2Proof.Machine.execLrcBuf s
  | .encode => Sys2Proof.Machine.execEncode s
  | .decode => Sys2Proof.Machine.execDecode s
  | .verify => Sys2Proof.Machine.execVerify s
  | .sreset => Sys2Proof.Machine.execSreset s

end Sys2Proof.Machine
end

