-- ==== Sys2Proof/Machine/Bus.lean ====
section
/-! DEFINITION. The slave port: what one host event does (spec 20 R60 to R66, 60 R210, R211, 70 R241, R242). -/

namespace Sys2Proof.Machine

/-- A write of `v` to CMD issues one command, which runs before the write completes (R30, R66). -/
def issueCommand (v : Word) (s : State) : Result :=
  match decode v with
  | .ok i => exec i { s with resp := .written }
  | .error _ => execReserved { s with resp := .written }

/-- The error response to an access of another shape (R62, R211), and the host's reaction to it (`HOST_BUSERR`, log 5). -/
def busError (off : BitVec 12) (s : State) : Result :=
  match Config.hostBusErr with
  | .ignore => .next s.errorResponse
  | .fault => .fault (.hostBusError off)

/-- One event at the pins. While `rst_n` is low the port accepts no access (R242). -/
def serveEvent (e : HostEvent) (s : State) : Result :=
  match e with
  | .read width off =>
    if s.rstN then
      if wellShaped width off then .next (s.busRead off.toNat) else busError off s
    else .fault .accessDuringReset
  | .write width off v =>
    if s.rstN then
      if wellShaped width off then
        if off.toNat = Reg.cmd.offset then issueCommand v s else .next (s.busWrite off.toNat v)
      else busError off s
    else .fault .accessDuringReset
  | .resetLow => .next s.warmReset
  | .resetHigh => .next s.releaseReset
  | .powerOn => .next s.powerOn

/-- Serve the oldest event presented; with nothing presented the machine holds its state (R227). -/
def serveNext (s : State) : Result :=
  match s.port with
  | [] => .next s
  | e :: rest => serveEvent e { s with port := rest }

/-- Put a 32-bit write of CMD in front of what is presented at the port, with `rst_n` high so that it is served. -/
def State.present (s : State) (v : Word) : State :=
  { s with rstN := true, port := .write 32 0x00C v :: s.port }

end Sys2Proof.Machine
end

