-- ==== Sys2Proof/Machine/Step.lean ====
section
/-! DEFINITION. The step: one host access, or one event of the reset input (spec 00 R9). -/

namespace Sys2Proof.Machine

/-- One step of the machine (R9). -/
def step (s : State) : Host.Outcome State Fault Refusal := serveNext s

/-- The state in which the next step serves a CMD write of the table word `w`, of `nbits` bits with zeros above (log 1). -/
def State.withFetchWord (s : State) (nbits w : Nat) : State := s.present (BitVec.ofNat 32 (w % 2 ^ nbits))

end Sys2Proof.Machine
end

