-- ==== Sys2Proof/Machine/HostAsm.lean ====
section
/-! DEFINITION. The host's side of the interface: the assembly syntax of spec 30 R86 as lists of port events, and the exception
texts of 60 R216. The MCF uses none of it. -/

namespace Sys2Proof.Machine

/-- `MW off, v` (R86). -/
def hostWrite (off : Nat) (v : Word) : HostEvent := .write 32 (BitVec.ofNat 12 off) v

/-- `MR off` (R86). -/
def hostRead (off : Nat) : HostEvent := .read 32 (BitVec.ofNat 12 off)

/-- `CMD mnemonic b` (R86). -/
def hostCmd (i : Instr) : HostEvent := hostWrite 0x00C (encode i)

/-- `CLRST` (R86). -/
def hostClrst : HostEvent := hostWrite 0x008 0x00000300

/-- `SETCTRL` (R86). -/
def hostSetctrl (c : Ctrl) : HostEvent := hostWrite 0x004 c.toWord

/-- `LDBUF base, bytes` (R86): missing bytes of the last word are 0. -/
def hostLdbuf (base : Nat) : List Byte → List HostEvent
  | [] => []
  | [a] => [hostWrite base (wordOfBytes a 0 0 0)]
  | [a, b] => [hostWrite base (wordOfBytes a b 0 0)]
  | [a, b, c] => [hostWrite base (wordOfBytes a b c 0)]
  | a :: b :: c :: d :: s => hostWrite base (wordOfBytes a b c d) :: hostLdbuf (base + 4) s

/-- `CRC.STR bytes` (R86). -/
def hostCrcStr (s : List Byte) : List HostEvent := s.map (fun b => hostCmd (.crcByte b))

/-- The host's text for a Modbus exception code (R216). -/
def exceptionText (code : Byte) : String :=
  match code.toNat with
  | 1 => "illegal function"
  | 2 => "illegal data address"
  | 3 => "illegal data value"
  | 4 => "server device failure"
  | 5 => "acknowledge"
  | 6 => "server device busy"
  | 8 => "memory parity error"
  | 10 => "gateway path unavailable"
  | 11 => "gateway target device failed to respond"
  | _ => "unknown"

end Sys2Proof.Machine
end

