-- ==== Sys2Proof/Safety.lean ====
section
/-! DEFINITION. What claims are stated in: the invariant of the machine, what a step can answer, and traffic the port serves. -/

namespace Sys2Proof.Machine

/-- The state a result goes on with, or none where it stops. -/
def stateOf : Result → Option State
  | .next s => some s
  | .fault _ => none
  | .refused _ => none

/-- A check on the state a result goes on with; false where it stops. -/
def holdsAfter (r : Result) (p : State → Bool) : Bool :=
  match r with
  | .next s => p s
  | .fault _ => false
  | .refused _ => false

/-- The offsets of the four buffers (R61), the only ones that store bytes. -/
def inBuffer (a : Nat) : Prop := (0x400 ≤ a ∧ a ≤ 0x5FF) ∨ (0x800 ≤ a ∧ a ≤ 0xFFF)

/-- The byte of memory at a port offset, if it was written since power-on. -/
def State.byteAt (s : State) (a : Nat) : Option Byte := Memory.lookup s.mem a

/-- What holds of every state that the machine reaches, and that every step keeps. -/
structure State.Inv (s : State) : Prop where
  /-- The memory is in its canonical form. -/
  memWf : Memory.wf s.mem
  /-- Only buffer offsets hold bytes (R61). -/
  memInBuffers : ∀ a, (s.byteAt a).isSome → inBuffer a
  /-- RESULT is one of the codes of R212; the other values are never written. -/
  resultKnown : ∃ c : Code, s.regs.status.result = c.num
  /-- ADULEN is 0 or the length of an ADU (R11, R35), and all those bytes of TXBUF were written (R46). -/
  adulenBound : s.regs.adulen = 0 ∨ (4 ≤ s.regs.adulen.toNat ∧ s.regs.adulen.toNat ≤ 513)
  txbufWritten : ∀ k, k < s.regs.adulen.toNat → (s.byteAt (0x800 + k)).isSome
  /-- RDLEN is at most MAX_DATA, and all those bytes of RDATA were written (R38, R45). -/
  rdlenBound : s.regs.rdlen.toNat ≤ 252
  rdataWritten : ∀ k, k < s.regs.rdlen.toNat → (s.byteAt (0x500 + k)).isSome
  /-- EXCREG.FC has bit 7 clear (R39). -/
  excregMasked : s.regs.excreg.fc.getLsbD 7 = false
  /-- While EXC is set, EXCREG, RDLEN and RDATA[0] show the exception reply of RSPHDR (R164). -/
  excLatched : s.regs.status.exc = true →
    s.regs.rsphdr.fc.getLsbD 7 = true ∧ s.regs.rdlen = 1 ∧ s.regs.excreg.fc = s.regs.rsphdr.fc &&& 0x7F ∧
      s.byteAt 0x500 = some s.regs.excreg.code
  /-- A valid reply capture without EXC is that of a normal reply (R163). -/
  replyLatched : s.regs.status.rspv = true → s.regs.status.exc = false →
    s.regs.rsphdr.fc.getLsbD 7 = false ∧ s.regs.excreg = ExcReg.zero

/-- TXBUF holds the ADU of the captured request while REQV is set (R36): some binding's ADU with the captured header. -/
def State.CaptureInv (s : State) : Prop :=
  s.regs.status.reqv = true →
    ∃ (b : Binding) (d : List Byte), d.length ≤ 252 ∧
      (b ≠ .tcp → s.regs.reqcap.tid = 0) ∧
      (aduOf b s.regs.reqcap.tid s.regs.reqcap.unit s.regs.reqcap.fc d).length = s.regs.adulen.toNat ∧
      ∀ k, k < s.regs.adulen.toNat →
        s.byteAt (0x800 + k) = (aduOf b s.regs.reqcap.tid s.regs.reqcap.unit s.regs.reqcap.fc d)[k]?

/-! ### The words claims are stated in -/

/-- The bytes B[0..n) of the buffer at offset `base` as a command reads them: a byte that was written has its value, and the
k-th byte is the free value of draw `s.draws + k` where nothing was written (R52). -/
def State.bufferBytes (s : State) (base n : Nat) : List Byte :=
  (List.range n).map (fun k => (s.byteAt (base + k)).getD (Config.freeByte (s.draws + k)))

/-- From `s` to `t` the bytes `bs` were stored from offset `base` on, and every other byte of memory reads as before. -/
def storesOnly (s t : State) (base : Nat) (bs : List Byte) : Prop :=
  ∀ a, t.byteAt a = if base ≤ a ∧ a < base + bs.length then bs[a - base]? else s.byteAt a

/-- From `s` to `t` neither `rst_n`, the pending host events nor the port's answer changed. -/
def keepsPins (s t : State) : Prop := t.rstN = s.rstN ∧ t.port = s.port ∧ t.resp = s.resp

/-- The next step serves `e`, with `rest` still presented after it and `rst_n` high. -/
def serves (s : State) (e : HostEvent) (rest : List HostEvent) : Prop := s.rstN = true ∧ s.port = e :: rest

/-- The next step runs command `i` (R30). -/
def issues (s : State) (i : Instr) : Prop :=
  ∃ w rest, serves s (.write 32 0x00C w) rest ∧ decode w = .ok i

/-- The next step resets the registers (R241): power-on, a warm reset or SRESET. -/
def resets (s : State) : Prop :=
  (∃ rest, s.port = .powerOn :: rest) ∨ (∃ rest, s.port = .resetLow :: rest) ∨ issues s .sreset

/-- The next step is a host write of the word at offset `off` (R60). -/
def hostWrites (s : State) (off : Nat) : Prop :=
  ∃ (a : BitVec 12) (v : Word) (rest : List HostEvent), serves s (.write 32 a v) rest ∧ a.toNat = off

/-- Traffic the port serves without an error response and without a reset: accesses of the served shape only (R62). -/
def servedTraffic (l : List HostEvent) : Prop := ∀ e ∈ l, e.isAccess = true ∧ e.wellShaped = true

/-- `n` steps, ending early at the first stop. -/
def runSteps : Nat → State → Result
  | 0, s => .next s
  | n + 1, s =>
    match step s with
    | .next t => runSteps n t
    | .fault f => .fault f
    | .refused r => .refused r

/-- A run of `n` steps goes on to a state, with no stop. -/
def runsFor (n : Nat) (s t : State) : Prop := runSteps n s = .next t

end Sys2Proof.Machine
end

