-- ==== Sys2Proof/Certificates/Slice0/Obligations.lean ====
section
/-! DEFINITION. The statements about the MCF for the provers. -/

open Sys2Proof Sys2Proof.Machine

/-! ### Encoding (spec 30) -/

/-- Words written out from the opcode map of R81: every row, ignored bits set, reserved opcodes. -/
def Obligations.DecodesWrittenOutWords : Prop :=
  decode 0x00000000 = .ok .nop ∧ decode 0xFFFF0000 = .ok .nop ∧ decode 0x00000001 = .ok .crcInit ∧
    decode 0x00000102 = .ok (.crcByte 0x01) ∧ decode 0x00000003 = .ok .crcBuf ∧ decode 0x00000004 = .ok .lrcInit ∧
    decode 0x00000A05 = .ok (.lrcByte 0x0A) ∧ decode 0x00000006 = .ok .lrcBuf ∧ decode 0x00000010 = .ok .encode ∧
    decode 0x00000011 = .ok .decode ∧ decode 0x1234AB12 = .ok .verify ∧ decode 0x000000FF = .ok .sreset ∧
    decode 0x00000013 = .error (.reservedOpcode 0x13) ∧ decode 0x00000007 = .error (.reservedOpcode 0x07)

/-- Decode of encode is the identity, whatever stands in the bits a command word ignores (R80, R82). -/
def Obligations.DecodeOfEncodeIsIdentity : Prop :=
  ∀ (i : Instr) (upper : Half) (spare : Byte), i.wellFormed = true → decode (encodeWith i upper spare) = .ok i

/-- R84: every word selects exactly one row of R81 or R83, by `v[7:0]` alone, and R82: only CRC.BYTE and LRC.BYTE take the
operand byte `v[15:8]`. -/
def Obligations.OpcodeByteSelectsTheCommand : Prop :=
  ∀ w : Word,
    (w.toNat % 256 = 0x00 → decode w = .ok .nop) ∧
    (w.toNat % 256 = 0x01 → decode w = .ok .crcInit) ∧
    (w.toNat % 256 = 0x02 → ∃ b : Byte, b.toNat = w.toNat / 256 % 256 ∧ decode w = .ok (.crcByte b)) ∧
    (w.toNat % 256 = 0x03 → decode w = .ok .crcBuf) ∧
    (w.toNat % 256 = 0x04 → decode w = .ok .lrcInit) ∧
    (w.toNat % 256 = 0x05 → ∃ b : Byte, b.toNat = w.toNat / 256 % 256 ∧ decode w = .ok (.lrcByte b)) ∧
    (w.toNat % 256 = 0x06 → decode w = .ok .lrcBuf) ∧
    (w.toNat % 256 = 0x10 → decode w = .ok .encode) ∧
    (w.toNat % 256 = 0x11 → decode w = .ok .decode) ∧
    (w.toNat % 256 = 0x12 → decode w = .ok .verify) ∧
    (w.toNat % 256 = 0xFF → decode w = .ok .sreset) ∧
    ((0x07 ≤ w.toNat % 256 ∧ w.toNat % 256 ≤ 0x0F) ∨ (0x13 ≤ w.toNat % 256 ∧ w.toNat % 256 ≤ 0xFE) →
      ∃ op : Byte, op.toNat = w.toNat % 256 ∧ decode w = .error (.reservedOpcode op))

/-! ### The step and the bus (spec 20, 60, 70) -/

/-- A step that serves a CMD write runs the decoded command, with the event taken off the port and the write answered (R30,
R66; the queue and the answer are the model's, log 1 and 4). -/
def Obligations.StepRunsTheDecodedCommand : Prop :=
  ∀ (s : State) (w : Word) (rest : List HostEvent) (i : Instr), serves s (.write 32 0x00C w) rest → decode w = .ok i →
    step s = exec i { s with port := rest, resp := .written }

/-- R202: a reserved opcode ends with ERR_BADCMD, DONE and ERR set, and changes nothing else.
The queue and the answer are the model's (log 1, log 4). -/
def Obligations.ReservedOpcodeReportsBadcmd : Prop :=
  ∀ (s : State) (w : Word) (rest : List HostEvent), serves s (.write 32 0x00C w) rest →
    ((0x07 ≤ w.toNat % 256 ∧ w.toNat % 256 ≤ 0x0F) ∨ (0x13 ≤ w.toNat % 256 ∧ w.toNat % 256 ≤ 0xFE)) →
    step s = .next { s with
      port := rest, resp := .written
      regs := { s.regs with status := { s.regs.status with result := 0x05, done := true, err := true } } }

/-- R227: between host accesses the MCF holds its state.
That the absence of an access is a step is the model's (log 1). -/
def Obligations.IdleStepHoldsTheState : Prop :=
  ∀ s : State, s.port = [] → step s = .next s

/-- R242: an access presented while `rst_n` is low has no step (the model's stop, log 7); the MCF is ready for the first access
after `rst_n` goes high. -/
def Obligations.AccessDuringResetIsStuck : Prop :=
  ∀ (s : State) (rest : List HostEvent), s.rstN = false →
    (∀ w a, s.port = .read w a :: rest → step s = .fault .accessDuringReset) ∧
    (∀ w a v, s.port = .write w a v :: rest → step s = .fault .accessDuringReset) ∧
    (s.port = .resetHigh :: rest → step s = .next { s with rstN := true, port := rest })

/-- R62, R211: an access of another width or at an offset with bits [1:0] not 0 gets the error response, with read data 0, and
changes no state; what the host does with it is the open parameter HOST_BUSERR (log 5).
The queue and the answer are the model's (log 1, log 4). -/
def Obligations.OtherShapesGetABusError : Prop :=
  ∀ (s : State) (width : Nat) (a : BitVec 12) (rest : List HostEvent) (e : HostEvent),
    (e = .read width a ∨ ∃ v, e = .write width a v) → serves s e rest → (width ≠ 32 ∨ a.toNat % 4 ≠ 0) →
    (Config.hostBusErr = .ignore → step s = .next { s with port := rest, resp := .busError 0 }) ∧
    (Config.hostBusErr = .fault → step s = .fault (.hostBusError a))

/-- R21, R64: what a bus read of each register returns, field by field, 0 in every reserved bit, with nothing else changed.
The queue and the answer are the model's (log 1, log 4). -/
def Obligations.RegisterReadsReturnTheFields : Prop :=
  ∀ (s : State) (a : BitVec 12) (rest : List HostEvent), serves s (.read 32 a) rest →
    let reads := fun n : Nat => step s = .next { s with port := rest, resp := .readData (BitVec.ofNat 32 n) }
    let g := s.regs
    (a = 0x000 → reads 0x4D430001) ∧
    (a = 0x004 → reads (g.ctrl.binding.toNat + 4 * g.ctrl.refout.toNat + 8 * g.ctrl.refin.toNat + 16 * g.ctrl.vfc.toNat
      + 32 * g.ctrl.ieDone.toNat + 64 * g.ctrl.ieErr.toNat)) ∧
    (a = 0x008 → reads (g.status.result.toNat + 0x100 * g.status.done.toNat + 0x200 * g.status.err.toNat
      + 0x400 * g.status.exc.toNat + 0x800 * g.status.reqv.toNat + 0x1000 * g.status.rspv.toNat)) ∧
    (a = 0x00C → reads 0) ∧
    (a = 0x010 → reads g.unit.toNat) ∧
    (a = 0x014 → reads g.fc.toNat) ∧
    (a = 0x018 → reads g.txlen.toNat) ∧
    (a = 0x01C → reads g.tid.toNat) ∧
    (a = 0x020 → reads g.adulen.toNat) ∧
    (a = 0x024 → reads g.rxlen.toNat) ∧
    (a = 0x028 → reads (g.reqcap.unit.toNat + 0x100 * g.reqcap.fc.toNat + 0x10000 * g.reqcap.tid.toNat)) ∧
    (a = 0x02C → reads (g.rsphdr.unit.toNat + 0x100 * g.rsphdr.fc.toNat + 0x10000 * g.rsphdr.tid.toNat)) ∧
    (a = 0x030 → reads g.rdlen.toNat) ∧
    (a = 0x034 → reads (g.excreg.code.toNat + 0x100 * g.excreg.fc.toNat)) ∧
    (a = 0x038 → reads g.crc.toNat) ∧
    (a = 0x03C → reads g.lrcsum.toNat) ∧
    (a = 0x040 → reads ((256 - g.lrcsum.toNat) % 256))

/-- R23, R31 to R34, R40, R41, R43: a bus write of a RW register stores the written bits into its fields and changes nothing
else.
The queue and the answer are the model's (log 1, log 4). -/
def Obligations.RegisterWritesStoreTheFields : Prop :=
  ∀ (s : State) (a : BitVec 12) (v : Word) (rest : List HostEvent), serves s (.write 32 a v) rest →
    let writes := fun g : Regs => step s = .next { s with port := rest, resp := .written, regs := g }
    let n := v.toNat
    (a = 0x004 → writes { s.regs with ctrl := {
      binding := BitVec.ofNat 2 n, refout := n.testBit 2, refin := n.testBit 3
      vfc := n.testBit 4, ieDone := n.testBit 5, ieErr := n.testBit 6 } }) ∧
    (a = 0x010 → writes { s.regs with unit := BitVec.ofNat 8 n }) ∧
    (a = 0x014 → writes { s.regs with fc := BitVec.ofNat 8 n }) ∧
    (a = 0x018 → writes { s.regs with txlen := BitVec.ofNat 10 n }) ∧
    (a = 0x01C → writes { s.regs with tid := BitVec.ofNat 16 n }) ∧
    (a = 0x024 → writes { s.regs with rxlen := BitVec.ofNat 11 n }) ∧
    (a = 0x038 → writes { s.regs with crc := BitVec.ofNat 16 n }) ∧
    (a = 0x03C → writes { s.regs with lrcsum := BitVec.ofNat 8 n })

/-- R26: a write to STATUS clears DONE where bit 8 is 1 and ERR where bit 9 is 1, and ignores every other bit.
The queue and the answer are the model's (log 1, log 4). -/
def Obligations.StatusWriteClearsDoneAndErr : Prop :=
  ∀ (s : State) (v : Word) (rest : List HostEvent), serves s (.write 32 0x008 v) rest →
    step s = .next { s with
      port := rest, resp := .written
      regs := { s.regs with status := { s.regs.status with
        done := if v.toNat.testBit 8 then false else s.regs.status.done
        err := if v.toNat.testBit 9 then false else s.regs.status.err } } }

/-- R64, R48, R46, R45: a write of a RO register, of RDATA or TXBUF, or of a reserved offset has no effect, and a reserved offset
reads 0.
The queue and the answer are the model's (log 1, log 4). -/
def Obligations.ReadOnlyAndReservedIgnoreWrites : Prop :=
  ∀ (s : State) (a : BitVec 12) (rest : List HostEvent), a.toNat % 4 = 0 →
    (∀ v, serves s (.write 32 a v) rest →
      (a.toNat ∈ [0x000, 0x020, 0x028, 0x02C, 0x030, 0x034, 0x040] ∨ (0x044 ≤ a.toNat ∧ a.toNat ≤ 0x3FC) ∨
        (0x500 ≤ a.toNat ∧ a.toNat ≤ 0xBFC)) →
      step s = .next { s with port := rest, resp := .written }) ∧
    (serves s (.read 32 a) rest →
      ((0x044 ≤ a.toNat ∧ a.toNat ≤ 0x3FC) ∨ (0x600 ≤ a.toNat ∧ a.toNat ≤ 0x7FC)) →
      step s = .next { s with port := rest, resp := .readData 0 })

/-- R63: a buffer word is little-endian, both ways. A byte that nothing has written reads as a fresh free value (R52, log 2). A
write of TXDATA or RXBUF stores its four bytes and leaves every other byte; one of RDATA or TXBUF is ignored.
The queue and the answer are the model's (log 1, log 4). -/
def Obligations.BufferWordsAreLittleEndian : Prop :=
  ∀ (s : State) (a : BitVec 12) (rest : List HostEvent), a.toNat % 4 = 0 →
    (serves s (.read 32 a) rest →
      ((0x400 ≤ a.toNat ∧ a.toNat ≤ 0x5FC) ∨ (0x800 ≤ a.toNat ∧ a.toNat ≤ 0xFFC)) →
      ∃ v : Word, step s = .next { s with port := rest, resp := .readData v, draws := s.draws + 4 } ∧
        ∀ k, k < 4 → v.toNat / 2 ^ (8 * k) % 256 =
          ((s.byteAt (a.toNat + k)).getD (Config.freeByte (s.draws + k))).toNat) ∧
    (∀ v, serves s (.write 32 a v) rest →
      ((0x400 ≤ a.toNat ∧ a.toNat ≤ 0x4FC) ∨ (0xC00 ≤ a.toNat ∧ a.toNat ≤ 0xFFC)) →
      ∃ t, step s = .next t ∧ t.regs = s.regs ∧ t.rstN = s.rstN ∧ t.port = rest ∧ t.resp = .written ∧ t.draws = s.draws ∧
        storesOnly s t a.toNat ((List.range 4).map (fun k => BitVec.ofNat 8 (v.toNat / 2 ^ (8 * k))))) ∧
    (∀ v, serves s (.write 32 a v) rest →
      ((0x500 ≤ a.toNat ∧ a.toNat ≤ 0x5FC) ∨ (0x800 ≤ a.toNat ∧ a.toNat ≤ 0xBFC)) →
      step s = .next { s with port := rest, resp := .written })

/-- R65: a read has no side effect at any offset: no register, no byte and no pin changes. The model's counter of free values
may move (log 2). -/
def Obligations.ReadsHaveNoSideEffects : Prop :=
  ∀ (s t : State) (width : Nat) (a : BitVec 12) (rest : List HostEvent), serves s (.read width a) rest → step s = .next t →
    t = { s with port := rest, resp := t.resp, draws := t.draws } ∧ t.resp ≠ .noAccess ∧ t.resp ≠ .written

/-- R65: a write anywhere but CMD is idempotent: done twice it leaves what it leaves when done once.
The queue and the answer are the model's (log 1, log 4). -/
def Obligations.PlainWritesAreIdempotent : Prop :=
  ∀ (s : State) (a : BitVec 12) (v : Word) (rest : List HostEvent), a.toNat % 4 = 0 → a ≠ 0x00C → s.rstN = true →
    s.port = .write 32 a v :: .write 32 a v :: rest →
    ∃ t u, step s = .next t ∧ step t = .next u ∧ u = { t with port := rest }

/-- R220: `irq` is the OR of the enabled flags, and R241: it is low after every reset; clearing DONE and ERR lowers it (R26).
R220 leaves the routing of `irq` to the platform: the clause on `irqAtLine`, that the one input MCF_IRQ_LINE sees `irq`, is the
model's form of it (log 6, DESIGN CHOICE).
The queue and the answer are the model's (log 1, log 4). -/
def Obligations.IrqIsTheEnabledFlags : Prop :=
  (∀ s : State, irq s = true ↔ (s.regs.ctrl.ieDone = true ∧ s.regs.status.done = true) ∨
    (s.regs.ctrl.ieErr = true ∧ s.regs.status.err = true)) ∧
  (∀ s : State, irqAtLine Config.mcfIrqLine s = irq s) ∧
  (∀ s t : State, resets s → step s = .next t → irq t = false) ∧
  (∀ (s t : State) (rest : List HostEvent), serves s hostClrst rest → step s = .next t → irq t = false)

/-- R60: the port's offsets are relative to MCF_BASE, which may have any value. -/
def Obligations.PortOffsetsAreRelativeToTheBase : Prop :=
  ∀ base addr : Nat,
    (∀ off : BitVec 12, portOffset base addr = some off ↔ addr = base + off.toNat) ∧
    (portOffset base addr = none ↔ addr < base ∨ base + 4096 ≤ addr)

/-! ### Reset (spec 70, 42) -/

/-- R241: the values that every reset gives the registers.
That `rst_n` is high in the state after reset is the model's (log 7). -/
def Obligations.ResetValues : Prop :=
  Regs.reset = {
    ctrl := { binding := 0, refout := false, refin := false, vfc := true, ieDone := false, ieErr := false }
    status := { result := 0, done := false, err := false, exc := false, reqv := false, rspv := false }
    unit := 0, fc := 0, txlen := 0, tid := 0x0000, adulen := 0, rxlen := 0
    reqcap := { tid := 0, fc := 0, unit := 0 }, rsphdr := { tid := 0, fc := 0, unit := 0 }, rdlen := 0
    excreg := { fc := 0, code := 0 }, crc := 0xFFFF, lrcsum := 0 } ∧
  Regs.reset.read .id = 0x4D430001 ∧ Regs.reset.read .ctrl = 0x00000010 ∧ Regs.reset.read .status = 0 ∧
  Regs.reset.read .crc = 0x0000FFFF ∧ Regs.reset.read .lrc = 0 ∧
  State.reset.regs = Regs.reset ∧ State.reset.rstN = true ∧ ∀ a, State.reset.byteAt a = none

/-- R241: power-on leaves no buffer byte with a specified value, a warm reset and SRESET keep the buffers; all three give the
registers their reset values.
The queue and the answer are the model's (log 1, log 4). -/
def Obligations.ResetSources : Prop :=
  ∀ (s : State) (rest : List HostEvent),
    (s.port = .powerOn :: rest →
      ∃ t, step s = .next t ∧ t.regs = Regs.reset ∧ (∀ a, t.byteAt a = none) ∧ t.rstN = false ∧ t.port = rest) ∧
    (s.port = .resetLow :: rest → step s = .next { s with regs := Regs.reset, rstN := false, port := rest }) ∧
    exec .sreset s = .next { s with regs := Regs.reset }

/-- R201: SRESET, opcode 0xFF, returns every register to its reset value and keeps every buffer byte, as a warm
reset does; `irq` goes low. -/
def Obligations.SresetResetsTheRegisters : Prop :=
  (∀ s : State, exec .sreset s = .next { s with
    regs := {
      ctrl := { binding := 0, refout := false, refin := false, vfc := true, ieDone := false, ieErr := false }
      status := { result := 0, done := false, err := false, exc := false, reqv := false, rspv := false }
      unit := 0, fc := 0, txlen := 0, tid := Config.tidReset, adulen := 0, rxlen := 0
      reqcap := { tid := 0, fc := 0, unit := 0 }, rsphdr := { tid := 0, fc := 0, unit := 0 }, rdlen := 0
      excreg := { fc := 0, code := 0 }, crc := 0xFFFF, lrcsum := 0 } }) ∧
  (∀ s t : State, exec .sreset s = .next t → t.regs.read .ctrl = 0x00000010 ∧ t.regs.read .status = 0x00000000 ∧
    irq t = false ∧ (∀ a, t.byteAt a = s.byteAt a) ∧ s.warmReset = { t with rstN := false }) ∧
  ∀ w : Word, w.toNat % 256 = 0xFF → decode w = .ok .sreset

/-- R244: after a reset VERIFY gives COR_NOTREADY, and the first TCP ENCODE uses the transaction id TID_RESET. -/
def Obligations.AfterResetNothingIsCaptured : Prop :=
  ∀ s : State, s.regs = Regs.reset →
    exec .verify s = .next { s with regs := { s.regs with
      status := { s.regs.status with result := 0x20, done := true, err := true } } } ∧
    ∀ c : Ctrl, c.binding = 2 →
      ∃ t, exec .encode { s with regs := { s.regs with ctrl := c } } = .next t ∧ t.byteAt 0x800 = some 0 ∧
        t.byteAt 0x801 = some 0 ∧ t.regs.reqcap.tid = 0x0000 ∧ t.regs.tid = 0x0001

/-! ### Control and checksum commands (spec 42, 40) -/

/-- R200: NOP, opcode 0x00 whatever stands in the other bits, changes nothing. -/
def Obligations.NopChangesNothing : Prop :=
  (∀ s : State, exec .nop s = .next s) ∧ ∀ w : Word, w.toNat % 256 = 0x00 → decode w = .ok .nop

/-- R123: CRC.INIT, opcode 0x01, sets CRC to 0xFFFF and changes nothing else; a second one changes nothing. -/
def Obligations.CrcInitSetsTheInitialValue : Prop :=
  (∀ s : State, exec .crcInit s = .next { s with regs := { s.regs with crc := 0xFFFF } }) ∧
  (∀ s t : State, exec .crcInit s = .next t → exec .crcInit t = .next t) ∧
  ∀ w : Word, w.toNat % 256 = 0x01 → decode w = .ok .crcInit

/-- R120, R124: CRC.BYTE, opcode 0x02, folds the byte of bits [15:8] into CRC, least significant bit first, with the polynomial
0xA001, and changes nothing else; with the rule's three values. -/
def Obligations.CrcByteFoldsOneByte : Prop :=
  (∀ (b : Byte) (s : State), exec (.crcByte b) s = .next { s with regs := { s.regs with
    crc := (fun c : Half => if c.toNat % 2 = 1 then (c >>> 1) ^^^ 0xA001 else c >>> 1)^[8]
      (s.regs.crc ^^^ BitVec.ofNat 16 b.toNat) } }) ∧
  (∀ s t : State, s.regs.crc = 0x0000 → exec (.crcByte 0x00) s = .next t → t.regs.crc = 0x0000) ∧
  (∀ s t : State, s.regs.crc = 0xFFFF → exec (.crcByte 0xFF) s = .next t → t.regs.crc = 0x00FF) ∧
  (∀ s t : State, s.regs.crc = 0xFFFF → exec (.crcByte 0x01) s = .next t → t.regs.crc = 0x807E) ∧
  ∀ w : Word, w.toNat % 256 = 0x02 → decode w = .ok (.crcByte (BitVec.ofNat 8 (w.toNat / 256)))

/-- R126: CRC.BUF, opcode 0x03, folds RXBUF[0..RXLEN) into CRC, or ends with ERR_RXLEN where RXLEN passes 1024. A byte that nothing
has written reads as a free value, and the draw counter is the model's (log 2). -/
def Obligations.CrcBufFoldsTheReceivedBytes : Prop :=
  (∀ w : Word, w.toNat % 256 = 0x03 → decode w = .ok .crcBuf) ∧ ∀ s : State,
    (1024 < s.regs.rxlen.toNat → exec .crcBuf s = .next { s with regs := { s.regs with
      status := { s.regs.status with result := 0x04, done := true, err := true } } }) ∧
    (s.regs.rxlen.toNat ≤ 1024 → exec .crcBuf s = .next { s with
      draws := s.draws + s.regs.rxlen.toNat
      regs := { s.regs with
        crc := (s.bufferBytes 0xC00 s.regs.rxlen.toNat).foldl crcStep s.regs.crc
        status := { s.regs.status with result := 0x00, done := true } } })

/-- R128: LRC.INIT, opcode 0x04, clears LRCSUM and changes nothing else; the LRC register then reads 0. -/
def Obligations.LrcInitClearsTheSum : Prop :=
  (∀ s : State, exec .lrcInit s = .next { s with regs := { s.regs with lrcsum := 0x00 } }) ∧
  (∀ s t : State, exec .lrcInit s = .next t → t.regs.read .lrc = 0x00000000) ∧
  ∀ w : Word, w.toNat % 256 = 0x04 → decode w = .ok .lrcInit

/-- R129: LRC.BYTE, opcode 0x05, adds the byte of bits [15:8] to LRCSUM modulo 256 and changes nothing else; with the rule's
corner cases and its example. -/
def Obligations.LrcByteAddsOneByte : Prop :=
  (∀ (b : Byte) (s : State), exec (.lrcByte b) s = .next { s with regs := { s.regs with
    lrcsum := BitVec.ofNat 8 ((s.regs.lrcsum.toNat + b.toNat) % 256) } }) ∧
  (∀ s : State, exec (.lrcByte 0x00) s = .next s) ∧
  (∀ s t : State, s.regs.lrcsum = 0xFF → exec (.lrcByte 0x01) s = .next t → t.regs.lrcsum = 0x00) ∧
  (∀ s t : State, s.regs.lrcsum = 0x04 → exec (.lrcByte 0x0A) s = .next t →
    t.regs.lrcsum = 0x0E ∧ t.regs.read .lrc = 0x000000F2) ∧
  ∀ w : Word, w.toNat % 256 = 0x05 → decode w = .ok (.lrcByte (BitVec.ofNat 8 (w.toNat / 256)))

/-- R130: LRC.BUF, opcode 0x06, adds RXBUF[0..RXLEN) to LRCSUM modulo 256, or ends with ERR_RXLEN where RXLEN passes 1024. A byte
that nothing has written reads as a free value, and the draw counter is the model's (log 2). -/
def Obligations.LrcBufAddsTheReceivedBytes : Prop :=
  (∀ w : Word, w.toNat % 256 = 0x06 → decode w = .ok .lrcBuf) ∧ ∀ s : State,
    (1024 < s.regs.rxlen.toNat → exec .lrcBuf s = .next { s with regs := { s.regs with
      status := { s.regs.status with result := 0x04, done := true, err := true } } }) ∧
    (s.regs.rxlen.toNat ≤ 1024 → exec .lrcBuf s = .next { s with
      draws := s.draws + s.regs.rxlen.toNat
      regs := { s.regs with
        lrcsum := (s.bufferBytes 0xC00 s.regs.rxlen.toNat).foldl (fun x y => x + y) s.regs.lrcsum
        status := { s.regs.status with result := 0x00, done := true } } })

/-- R125: the table-driven form of `crc16_step`. -/
def Obligations.TableDrivenCrcStep : Prop :=
  ∀ (c : Half) (b : Byte),
    crcStep c b = (c >>> 8) ^^^ crcStep 0x0000 (BitVec.ofNat 8 (c ^^^ BitVec.ofNat 16 b.toNat).toNat)

/-- R127 (b): the residue of a byte sequence followed by its CRC, low byte first, is 0; (c) the check value; (d) the CRC of the
empty sequence. -/
def Obligations.CrcResidueIsZero : Prop :=
  (∀ s : List Byte,
    crc16 (s ++ [BitVec.ofNat 8 (crc16 s).toNat, BitVec.ofNat 8 ((crc16 s).toNat / 256)]) = 0x0000) ∧
  crc16 [0x31, 0x32, 0x33, 0x34, 0x35, 0x36, 0x37, 0x38, 0x39] = 0x4B37 ∧ crc16 [] = 0xFFFF

/-- R127 (a): CRC.INIT and then one CRC.BYTE for each byte leave the CRC that CRC.INIT and CRC.BUF over the same bytes in RXBUF
leave, `crc16` of the bytes.
The queue and the answer are the model's (log 1, log 4). -/
def Obligations.StreamingCrcEqualsBulkCrc : Prop :=
  ∀ bytes : List Byte,
    (∀ s : State, s.rstN = true → s.port = hostCmd .crcInit :: hostCrcStr bytes →
      ∃ t, runsFor (bytes.length + 1) s t ∧ t.regs.crc = crc16 bytes ∧ t.port = []) ∧
    (∀ s : State, bytes.length ≤ 1024 → s.regs.rxlen.toNat = bytes.length →
      (∀ k, k < bytes.length → s.byteAt (0xC00 + k) = bytes[k]?) →
      ∃ t u, exec .crcInit s = .next t ∧ exec .crcBuf t = .next u ∧ u.regs.crc = crc16 bytes)

/-- R131: (a) the LRC completes the byte sum to 0 modulo 256; (b) LRC.INIT and then one LRC.BYTE for each byte leave the sum
that LRC.INIT and LRC.BUF over the same bytes in RXBUF leave, the byte sum modulo 256, and LRC then reads `lrc8` of the bytes;
(c) changing one byte changes the sum modulo 256.
The queue and the answer are the model's (log 1, log 4). -/
def Obligations.LrcLaws : Prop :=
  (∀ s : List Byte, (byteSum s + (lrc8 s).toNat) % 256 = 0) ∧
  (∀ (bytes : List Byte) (s : State), s.rstN = true →
    s.port = hostCmd .lrcInit :: bytes.map (fun b => hostCmd (.lrcByte b)) →
    ∃ t, runsFor (bytes.length + 1) s t ∧ t.regs.lrcsum.toNat = byteSum bytes % 256 ∧
      t.regs.read .lrc = BitVec.ofNat 32 (lrc8 bytes).toNat) ∧
  (∀ (bytes : List Byte) (s : State), bytes.length ≤ 1024 → s.regs.rxlen.toNat = bytes.length →
    (∀ k, k < bytes.length → s.byteAt (0xC00 + k) = bytes[k]?) →
    ∃ t u, exec .lrcInit s = .next t ∧ exec .lrcBuf t = .next u ∧ u.regs.lrcsum.toNat = byteSum bytes % 256 ∧
      u.regs.read .lrc = BitVec.ofNat 32 (lrc8 bytes).toNat) ∧
  (∀ (s : List Byte) (i : Nat) (b : Byte), i < s.length → s[i]? ≠ some b →
    byteSum (s.set i b) % 256 ≠ byteSum s % 256)

/-- R132: ENCODE, DECODE and VERIFY neither write nor read CRC and LRCSUM: other accumulator values change nothing but
themselves. -/
def Obligations.FramerIgnoresTheAccumulators : Prop :=
  ∀ (i : Instr) (s t : State) (c : Half) (l : Byte), i = .encode ∨ i = .decode ∨ i = .verify → exec i s = .next t →
    t.regs.crc = s.regs.crc ∧ t.regs.lrcsum = s.regs.lrcsum ∧
    exec i { s with regs := { s.regs with crc := c, lrcsum := l } } =
      .next { t with regs := { t.regs with crc := c, lrcsum := l } }

/-- R132: a checksum command writes no register but CRC, LRCSUM and, for the two BUF commands, STATUS; it writes no byte; and
what it writes depends on CRC, LRCSUM, RXLEN and RXBUF alone: the accumulators, and in the BUF commands RESULT and DONE, and ERR
up to the ERR that was there (R27 only adds to it).
The free value
of a byte that nothing has written and the draw counter are the model's (log 2). -/
def Obligations.ChecksumCommandsIgnoreTheFramer : Prop :=
  ∀ (i : Instr) (s t s' t' : State),
    (i = .crcInit ∨ i = .crcBuf ∨ i = .lrcInit ∨ i = .lrcBuf ∨ ∃ b, i = .crcByte b ∨ i = .lrcByte b) →
    exec i s = .next t → exec i s' = .next t' →
    t.regs = { s.regs with crc := t.regs.crc, lrcsum := t.regs.lrcsum, status := t.regs.status } ∧
    (i ≠ .crcBuf → i ≠ .lrcBuf → t.regs.status = s.regs.status) ∧
    (∀ a, t.byteAt a = s.byteAt a) ∧ keepsPins s t ∧
    (s'.regs.crc = s.regs.crc → s'.regs.lrcsum = s.regs.lrcsum → s'.regs.rxlen = s.regs.rxlen → s'.draws = s.draws →
      (∀ a, 0xC00 ≤ a → a ≤ 0xFFF → s'.byteAt a = s.byteAt a) →
      t'.regs.crc = t.regs.crc ∧ t'.regs.lrcsum = t.regs.lrcsum ∧ t'.draws = t.draws ∧
      (i = .crcBuf ∨ i = .lrcBuf →
        t'.regs.status.result = t.regs.status.result ∧ t'.regs.status.done = t.regs.status.done ∧
        (s'.regs.status.err = s.regs.status.err → t'.regs.status.err = t.regs.status.err)))

/-! ### Frame formats (spec 30, 00, 41) -/

/-- R143: `swap16` exchanges the bytes of each 16-bit word, keeps a trailing odd byte and the length, and is its own inverse;
NONE is the identity (R10). That `swap16` is the swap of the model's configuration rests on its SWAP_MODE, the value of R10's
table (log 9, DESIGN CHOICE). -/
def Obligations.SwapExchangesBytesOfWords : Prop :=
  ∀ s : List Byte,
    (swap16 s).length = s.length ∧ swap16 (swap16 s) = s ∧
    (∀ i, 2 * i + 1 < s.length → (swap16 s)[2 * i]? = s[2 * i + 1]? ∧ (swap16 s)[2 * i + 1]? = s[2 * i]?) ∧
    (s.length % 2 = 1 → (swap16 s)[s.length - 1]? = s[s.length - 1]?) ∧
    swapData Config.swapMode s = swap16 s ∧ swapData .none s = s

/-- R94, R95: `hexU` writes two uppercase digits per byte, high nibble first; `unhexU` is defined exactly on an even number of
characters of 0x30..0x39 and 0x41..0x46, and is then the inverse of `hexU`. -/
def Obligations.HexCodecIsExact : Prop :=
  (∀ n, n < 16 → (hexDigit n).toNat = if n ≤ 9 then 0x30 + n else 0x41 + (n - 10)) ∧
  hexU [] = [] ∧ (∀ (b : Byte) (s : List Byte), hexU (b :: s) = [hexDigit (b.toNat / 16), hexDigit (b.toNat % 16)] ++ hexU s) ∧
  (∀ s : List Byte, (hexU s).length = 2 * s.length ∧ unhexU (hexU s) = some s) ∧
  (∀ cs : List Byte, (unhexU cs).isSome = true ↔ cs.length % 2 = 0 ∧
    ∀ c ∈ cs, (0x30 ≤ c.toNat ∧ c.toNat ≤ 0x39) ∨ (0x41 ≤ c.toNat ∧ c.toNat ≤ 0x46)) ∧
  (∀ cs s : List Byte, unhexU cs = some s → hexU s = cs)

/-- R11: the lengths of the ADUs, and MINADU and MAXADU; every ADU of a data field of at most MAX_DATA bytes is in range. -/
def Obligations.AduLengths : Prop :=
  minAdu .rtu = 4 ∧ minAdu .ascii = 9 ∧ minAdu .tcp = 8 ∧ maxAdu .rtu = 256 ∧ maxAdu .ascii = 513 ∧ maxAdu .tcp = 260 ∧
  ∀ (t : Half) (u f : Byte) (d : List Byte),
    (aduOf .rtu t u f d).length = d.length + 4 ∧ (aduOf .ascii t u f d).length = 2 * d.length + 9 ∧
    (aduOf .tcp t u f d).length = d.length + 8 ∧
    ∀ b : Binding, d.length ≤ 252 → minAdu b ≤ (aduOf b t u f d).length ∧ (aduOf b t u f d).length ≤ maxAdu b

/-- R151: RTU parsing of a frame with unit id, function code, data and two checksum bytes, the low byte first; the
check is the same as that the CRC of the whole frame is 0. -/
def Obligations.RtuParsingChecksTheCrc : Prop :=
  ∀ (u f lo hi : Byte) (d : List Byte),
    (parseAdu .rtu ([u, f] ++ d ++ [lo, hi]) =
      if (crc16 ([u, f] ++ d)).toNat = lo.toNat + 256 * hi.toNat
      then .ok { unit := u, fc := f, data := d, tid := 0x0000 } else .error .frmCrc) ∧
    ((crc16 ([u, f] ++ d)).toNat = lo.toNat + 256 * hi.toNat ↔ crc16 ([u, f] ++ d ++ [lo, hi]) = 0x0000)

/-- R152: ASCII parsing: the delimiters, then the hex form, then the sum of the binary bytes, in this order. -/
def Obligations.AsciiParsingChecksInOrder : Prop :=
  ∀ (c0 c1 c2 : Byte) (h : List Byte), 6 ≤ h.length →
    (¬(c0 = 0x3A ∧ c1 = 0x0D ∧ c2 = 0x0A) → parseAdu .ascii ([c0] ++ h ++ [c1, c2]) = .error .frmDelim) ∧
    (c0 = 0x3A → c1 = 0x0D → c2 = 0x0A → unhexU h = none → parseAdu .ascii ([c0] ++ h ++ [c1, c2]) = .error .frmHex) ∧
    (∀ (u f l : Byte) (d : List Byte), c0 = 0x3A → c1 = 0x0D → c2 = 0x0A → unhexU h = some ([u, f] ++ d ++ [l]) →
      parseAdu .ascii ([c0] ++ h ++ [c1, c2]) =
        if l = lrc8 ([u, f] ++ d) then .ok { unit := u, fc := f, data := d, tid := 0x0000 } else .error .frmLrc)

/-- R153: TCP parsing: the protocol id, then the length field, both big-endian. -/
def Obligations.TcpParsingChecksTheHeader : Prop :=
  ∀ (t1 t0 p1 p0 l1 l0 u f : Byte) (d : List Byte), d.length ≤ 252 →
    parseAdu .tcp ([t1, t0, p1, p0, l1, l0, u, f] ++ d) =
      if p1.toNat * 256 + p0.toNat ≠ 0 then .error .frmProto
      else if l1.toNat * 256 + l0.toNat ≠ d.length + 2 then .error .frmLength
      else .ok { unit := u, fc := f, data := d, tid := BitVec.ofNat 16 (t1.toNat * 256 + t0.toNat) }

/-! ### ENCODE (spec 41) -/

/-- R141, R148: the errors of ENCODE, in order, and that a failed ENCODE writes RESULT, DONE, ERR, REQV and RSPV only; ENCODE
has no other error. -/
def Obligations.EncodeErrorsInOrder : Prop :=
  ∀ s : State,
    let fails := fun code : BitVec 6 => exec .encode s = .next { s with regs := { s.regs with
      status := { s.regs.status with result := code, done := true, err := true, reqv := false, rspv := false } } }
    (s.regs.ctrl.binding = 3 → fails 0x02) ∧
    (s.regs.ctrl.binding ≠ 3 → 252 < s.regs.txlen.toNat → fails 0x03) ∧
    (s.regs.ctrl.binding ≠ 3 → s.regs.txlen.toNat ≤ 252 → ∃ t, exec .encode s = .next t ∧ t.regs.status.result = 0x00)

/-- R90, R144, R147: a successful RTU ENCODE, all it writes and all it leaves.
The free value
of a byte that nothing has written and the draw counter are the model's (log 2). -/
def Obligations.EncodeRtu : Prop :=
  ∀ s : State, s.regs.ctrl.binding = 0 → s.regs.txlen.toNat ≤ 252 →
    let d0 := s.bufferBytes 0x400 s.regs.txlen.toNat
    let d := if s.regs.ctrl.refout then swap16 d0 else d0
    let c := crc16 ([s.regs.unit, s.regs.fc] ++ d)
    ∃ t, exec .encode s = .next t ∧ keepsPins s t ∧ t.draws = s.draws + s.regs.txlen.toNat ∧
      storesOnly s t 0x800
        ([s.regs.unit, s.regs.fc] ++ d ++ [BitVec.ofNat 8 c.toNat, BitVec.ofNat 8 (c.toNat / 256)]) ∧
      t.regs.adulen.toNat = s.regs.txlen.toNat + 4 ∧
      t.regs = { s.regs with
        adulen := t.regs.adulen
        reqcap := { tid := 0x0000, fc := s.regs.fc, unit := s.regs.unit }
        status := { s.regs.status with result := 0x00, done := true, reqv := true, rspv := false } }

/-- R91, R145, R147: a successful ASCII ENCODE, all it writes and all it leaves.
The free value
of a byte that nothing has written and the draw counter are the model's (log 2). -/
def Obligations.EncodeAscii : Prop :=
  ∀ s : State, s.regs.ctrl.binding = 1 → s.regs.txlen.toNat ≤ 252 →
    let d0 := s.bufferBytes 0x400 s.regs.txlen.toNat
    let d := if s.regs.ctrl.refout then swap16 d0 else d0
    let b := [s.regs.unit, s.regs.fc] ++ d
    ∃ t, exec .encode s = .next t ∧ keepsPins s t ∧ t.draws = s.draws + s.regs.txlen.toNat ∧
      storesOnly s t 0x800 ([0x3A] ++ hexU (b ++ [lrc8 b]) ++ [0x0D, 0x0A]) ∧
      t.regs.adulen.toNat = 2 * s.regs.txlen.toNat + 9 ∧
      t.regs = { s.regs with
        adulen := t.regs.adulen
        reqcap := { tid := 0x0000, fc := s.regs.fc, unit := s.regs.unit }
        status := { s.regs.status with result := 0x00, done := true, reqv := true, rspv := false } }

/-- R92, R146, R147: a successful TCP ENCODE, all it writes and all it leaves; TID is used and then advanced modulo 65536.
The free value
of a byte that nothing has written and the draw counter are the model's (log 2). -/
def Obligations.EncodeTcp : Prop :=
  ∀ s : State, s.regs.ctrl.binding = 2 → s.regs.txlen.toNat ≤ 252 →
    let n := s.regs.txlen.toNat
    let d0 := s.bufferBytes 0x400 n
    let d := if s.regs.ctrl.refout then swap16 d0 else d0
    let t16 := s.regs.tid.toNat
    ∃ t, exec .encode s = .next t ∧ keepsPins s t ∧ t.draws = s.draws + n ∧
      storesOnly s t 0x800
        ([BitVec.ofNat 8 (t16 / 256), BitVec.ofNat 8 t16, 0, 0, BitVec.ofNat 8 ((n + 2) / 256), BitVec.ofNat 8 (n + 2),
          s.regs.unit, s.regs.fc] ++ d) ∧
      t.regs.adulen.toNat = n + 8 ∧ t.regs.tid.toNat = (t16 + 1) % 65536 ∧
      t.regs = { s.regs with
        adulen := t.regs.adulen
        tid := t.regs.tid
        reqcap := { tid := s.regs.tid, fc := s.regs.fc, unit := s.regs.unit }
        status := { s.regs.status with result := 0x00, done := true, reqv := true, rspv := false } }

/-! ### DECODE (spec 41) -/

/-- R165, R166: the failures of DECODE in their order, each with its number of R212, and that a failed DECODE writes RESULT,
DONE, ERR, RSPV and EXC only. The binding's own failures are FRM_CRC 0x12 under RTU, FRM_DELIM 0x14, FRM_HEX 0x15 and FRM_LRC
0x13 under ASCII, FRM_PROTO 0x16 and FRM_LENGTH 0x17 under TCP. The bytes are read, and their draws used up, once RXLEN is in
range (log 2). -/
def Obligations.DecodeFailuresInOrder : Prop :=
  ∀ s : State,
    let len := s.regs.rxlen.toNat
    let fails := fun (code : BitVec 6) (n : Nat) => exec .decode s = .next { s with
      draws := s.draws + n
      regs := { s.regs with
        status := { s.regs.status with result := code, done := true, err := true, rspv := false, exc := false } } }
    (s.regs.ctrl.binding = 3 → fails 0x02 0) ∧
    ∀ b : Binding, s.regs.ctrl.bindingOf = some b →
      (len < minAdu b → fails 0x10 0) ∧
      (maxAdu b < len → fails 0x11 0) ∧
      (minAdu b ≤ len → len ≤ maxAdu b →
        (∀ c, parseAdu b (s.bufferBytes 0xC00 len) = .error c →
          (b = .rtu ∧ c = .frmCrc ∧ fails 0x12 len) ∨
          (b = .ascii ∧ c = .frmDelim ∧ fails 0x14 len) ∨
          (b = .ascii ∧ c = .frmHex ∧ fails 0x15 len) ∨
          (b = .ascii ∧ c = .frmLrc ∧ fails 0x13 len) ∨
          (b = .tcp ∧ c = .frmProto ∧ fails 0x16 len) ∨
          (b = .tcp ∧ c = .frmLength ∧ fails 0x17 len)) ∧
        (∀ fr, parseAdu b (s.bufferBytes 0xC00 len) = .ok fr → fr.fc.getLsbD 7 = true → fr.data.length ≠ 1 → fails 0x18 len))

/-- R163: DECODE of a normal reply, all it writes and all it leaves.
The free value
of a byte that nothing has written and the draw counter are the model's (log 2). -/
def Obligations.DecodeLatchesANormalReply : Prop :=
  ∀ (s : State) (b : Binding) (fr : Frame), s.regs.ctrl.bindingOf = some b →
    minAdu b ≤ s.regs.rxlen.toNat → s.regs.rxlen.toNat ≤ maxAdu b →
    parseAdu b (s.bufferBytes 0xC00 s.regs.rxlen.toNat) = .ok fr → fr.fc.getLsbD 7 = false →
    let d := if s.regs.ctrl.refin then swap16 fr.data else fr.data
    ∃ t, exec .decode s = .next t ∧ keepsPins s t ∧ t.draws = s.draws + s.regs.rxlen.toNat ∧
      storesOnly s t 0x500 d ∧ t.regs.rdlen.toNat = fr.data.length ∧ fr.data.length ≤ 252 ∧
      t.regs = { s.regs with
        rsphdr := { tid := fr.tid, fc := fr.fc, unit := fr.unit }
        rdlen := t.regs.rdlen
        excreg := { fc := 0, code := 0 }
        status := { s.regs.status with result := 0x00, done := true, rspv := true, exc := false } }

/-- R164, R217: DECODE of a well-formed exception reply, all it writes and all it leaves; the code byte is never swapped and any
code is accepted.
The free value
of a byte that nothing has written and the draw counter are the model's (log 2). -/
def Obligations.DecodeLatchesAnExceptionReply : Prop :=
  ∀ (s : State) (b : Binding) (fr : Frame) (code : Byte), s.regs.ctrl.bindingOf = some b →
    minAdu b ≤ s.regs.rxlen.toNat → s.regs.rxlen.toNat ≤ maxAdu b →
    parseAdu b (s.bufferBytes 0xC00 s.regs.rxlen.toNat) = .ok fr → fr.fc.getLsbD 7 = true → fr.data = [code] →
    ∃ t, exec .decode s = .next t ∧ keepsPins s t ∧ t.draws = s.draws + s.regs.rxlen.toNat ∧
      storesOnly s t 0x500 [code] ∧
      t.regs = { s.regs with
        rsphdr := { tid := fr.tid, fc := fr.fc, unit := fr.unit }
        rdlen := 1
        excreg := { fc := BitVec.ofNat 8 (fr.fc.toNat % 128), code := code }
        status := { s.regs.status with result := 0x01, done := true, rspv := true, exc := true } }

/-- R257: DECODE is a function of CTRL and RXBUF[0..RXLEN) alone: two states that agree on these get the same result code, the
same EXC and RSPV and, where the reply is accepted, the same capture and data. -/
def Obligations.DecodeDependsOnCtrlAndTheFrameAlone : Prop :=
  ∀ s s' t t' : State, s'.regs.ctrl = s.regs.ctrl → s'.regs.rxlen = s.regs.rxlen →
    (∀ k, k < s.regs.rxlen.toNat → (s.byteAt (0xC00 + k)).isSome = true ∧ s'.byteAt (0xC00 + k) = s.byteAt (0xC00 + k)) →
    exec .decode s = .next t → exec .decode s' = .next t' →
    t'.regs.status.result = t.regs.status.result ∧ t'.regs.status.exc = t.regs.status.exc ∧
    t'.regs.status.rspv = t.regs.status.rspv ∧
    (t.regs.status.rspv = true →
      t'.regs.rsphdr = t.regs.rsphdr ∧ t'.regs.rdlen = t.regs.rdlen ∧ t'.regs.excreg = t.regs.excreg ∧
      ∀ k, k < t.regs.rdlen.toNat → t'.byteAt (0x500 + k) = t.byteAt (0x500 + k))

/-! ### VERIFY (spec 41) -/

/-- R170 to R173: VERIFY reports the first check that fails, in the order ERR_CONFIG, COR_NOTREADY, COR_UNIT, COR_TID (TCP
only), COR_FC (under TCP only where VFC is 1), else OK; it writes RESULT, DONE and ERR only. -/
def Obligations.VerifyReportsTheFirstMismatch : Prop :=
  (∀ w : Word, w.toNat % 256 = 0x12 → decode w = .ok .verify) ∧ ∀ s : State,
    let g := s.regs
    let reports := fun (code : BitVec 6) (isErr : Bool) => exec .verify s = .next { s with regs := { s.regs with
      status := { s.regs.status with result := code, done := true, err := s.regs.status.err || isErr } } }
    (g.ctrl.binding = 3 → reports 0x02 true) ∧
    (g.ctrl.binding ≠ 3 →
      (g.status.reqv = false ∨ g.status.rspv = false → reports 0x20 true) ∧
      (g.status.reqv = true → g.status.rspv = true →
        (g.rsphdr.unit ≠ g.reqcap.unit → reports 0x21 true) ∧
        (g.rsphdr.unit = g.reqcap.unit →
          (g.ctrl.binding = 2 → g.rsphdr.tid ≠ g.reqcap.tid → reports 0x22 true) ∧
          (g.ctrl.binding ≠ 2 ∨ g.rsphdr.tid = g.reqcap.tid →
            (g.rsphdr.fc.toNat % 128 ≠ g.reqcap.fc.toNat → g.ctrl.binding ≠ 2 ∨ g.ctrl.vfc = true → reports 0x23 true) ∧
            (g.rsphdr.fc.toNat % 128 = g.reqcap.fc.toNat ∨ (g.ctrl.binding = 2 ∧ g.ctrl.vfc = false) →
              reports 0x00 false)))))

/-! ### Whole-machine rules -/

/-- Part 1 of 93: every command has a defined outcome in every state, and so has every access of the served shape outside reset;
no command causes a bus error (R210).
The queue and the answer are the model's (log 1, log 4). -/
def Obligations.EveryCommandCompletes : Prop :=
  (∀ (i : Instr) (s : State), ∃ t, exec i s = .next t ∧ t.port = s.port ∧ t.rstN = s.rstN ∧ t.resp = s.resp) ∧
  (∀ (s : State) (e : HostEvent) (rest : List HostEvent), serves s e rest → e.wellShaped = true →
    ∃ t, step s = .next t ∧ t.port = rest)

/-- R261, R66: presented accesses of the served shape are all served, one a step, with no stop.
The queue and the answer are the model's (log 1, log 4). -/
def Obligations.ServedTrafficRunsToItsEnd : Prop :=
  ∀ (n : Nat) (s : State), s.rstN = true → servedTraffic s.port →
    ∃ t, runsFor n s t ∧ t.port = s.port.drop n ∧ t.rstN = true

/-- R203, R27: every command but SRESET does the same whatever DONE and ERR hold: all else it leaves is the same, and it adds
to the two flags values D and E that do not depend on them. So the flags only accumulate. SRESET does the same to everything
whatever they hold. -/
def Obligations.StickyFlagsAreNeverAnOperand : Prop :=
  (∀ (i : Instr) (s t : State), i ≠ .sreset → exec i s = .next t →
    ∃ D E : Bool, t.regs.status.done = (s.regs.status.done || D) ∧ t.regs.status.err = (s.regs.status.err || E) ∧
      ∀ d e : Bool,
        exec i { s with regs := { s.regs with status := { s.regs.status with done := d, err := e } } } =
          .next { t with regs := { t.regs with status := { t.regs.status with done := d || D, err := e || E } } }) ∧
  ∀ (s : State) (d e : Bool),
    exec .sreset { s with regs := { s.regs with status := { s.regs.status with done := d, err := e } } } = exec .sreset s

/-- R29: EXC is written by DECODE and by reset only, REQV by ENCODE and by reset only, RSPV by DECODE, ENCODE and reset only.
The queue and the answer are the model's (log 1, log 4). -/
def Obligations.CaptureFlagsHaveTheirWriters : Prop :=
  ∀ s t : State, step s = .next t →
    (t.regs.status.exc ≠ s.regs.status.exc → issues s .decode ∨ resets s) ∧
    (t.regs.status.reqv ≠ s.regs.status.reqv → issues s .encode ∨ resets s) ∧
    (t.regs.status.rspv ≠ s.regs.status.rspv → issues s .decode ∨ issues s .encode ∨ resets s)

/-- R34, R35, R36: TID changes only by reset, by a host write of TID, or by a successful TCP ENCODE, which advances it by one;
ADULEN and REQCAP change only by a successful ENCODE and by reset.
The queue and the answer are the model's (log 1, log 4). -/
def Obligations.RequestSideHasItsWriters : Prop :=
  ∀ s t : State, step s = .next t →
    (t.regs.tid ≠ s.regs.tid →
      resets s ∨ hostWrites s 0x01C ∨
        (issues s .encode ∧ s.regs.ctrl.binding = 2 ∧ s.regs.txlen.toNat ≤ 252 ∧ t.regs.tid = s.regs.tid + 1)) ∧
    (t.regs.adulen ≠ s.regs.adulen ∨ t.regs.reqcap ≠ s.regs.reqcap →
      resets s ∨ (issues s .encode ∧ s.regs.ctrl.binding ≠ 3 ∧ s.regs.txlen.toNat ≤ 252))

/-- R44 to R47: no command writes TXDATA or RXBUF, only DECODE writes RDATA, only ENCODE writes TXBUF, the host writes none of
RDATA and TXBUF; a power-on forgets them all.
The queue and the answer are the model's (log 1, log 4). -/
def Obligations.BuffersHaveTheirWriters : Prop :=
  ∀ (s t : State) (a : Nat), step s = .next t → t.byteAt a ≠ s.byteAt a →
    (∃ rest, s.port = .powerOn :: rest) ∨
    (0x500 ≤ a ∧ a < 0x500 + t.regs.rdlen.toNat ∧ issues s .decode) ∨
    (0x800 ≤ a ∧ a < 0x800 + t.regs.adulen.toNat ∧ issues s .encode) ∨
    (((0x400 ≤ a ∧ a ≤ 0x4FF) ∨ (0xC00 ≤ a ∧ a ≤ 0xFFF)) ∧ hostWrites s (a / 4 * 4))

/-- The invariant holds of the state after reset. -/
def Obligations.ResetMeetsTheInvariant : Prop :=
  State.reset.Inv ∧ State.reset.CaptureInv

/-- Every step keeps the invariant, from every state that meets it.
The step and its queue are the model's (log 1). -/
def Obligations.EveryStepKeepsTheInvariant : Prop :=
  ∀ s t : State, s.Inv → step s = .next t → t.Inv

/-- R36: while REQV is set, TXBUF[0..ADULEN) is a whole ADU of the request REQCAP shows, and every step keeps it so: comparing
against the capture equals comparing against the request ADU.
The step and its queue are the model's (log 1). -/
def Obligations.EveryStepKeepsTheCaptureTrue : Prop :=
  ∀ s t : State, s.CaptureInv → step s = .next t → t.CaptureInv

/-! ### Headline rules -/

/-- R168: a request that ENCODE framed, copied to RXBUF, decodes to the same header and data, and VERIFY then gives OK.
The free value
of a byte that nothing has written and the draw counter are the model's (log 2). -/
def Obligations.EncodeDecodeVerifyRoundTrip : Prop :=
  ∀ s t u : State, s.regs.ctrl.binding ≠ 3 → s.regs.txlen.toNat ≤ 252 → s.regs.fc.getLsbD 7 = false →
    exec .encode s = .next t →
    u.regs.ctrl.binding = s.regs.ctrl.binding → u.regs.ctrl.refout = s.regs.ctrl.refout →
    u.regs.reqcap = t.regs.reqcap → u.regs.status.reqv = true → u.regs.rxlen = t.regs.adulen →
    (∀ k, k < t.regs.adulen.toNat → u.byteAt (0xC00 + k) = t.byteAt (0x800 + k)) →
    let d := s.bufferBytes 0x400 s.regs.txlen.toNat
    ∃ v w, exec .decode u = .next v ∧ exec .verify v = .next w ∧
      v.regs.status.result = 0x00 ∧ v.regs.rsphdr.unit = s.regs.unit ∧ v.regs.rsphdr.fc = s.regs.fc ∧
      (s.regs.ctrl.binding = 2 → v.regs.rsphdr.tid = t.regs.reqcap.tid) ∧
      v.regs.rdlen.toNat = s.regs.txlen.toNat ∧
      (u.regs.ctrl.refin = u.regs.ctrl.refout →
        ∀ k, k < s.regs.txlen.toNat → v.byteAt (0x500 + k) = d[k]?) ∧
      (u.regs.ctrl.refin ≠ u.regs.ctrl.refout →
        ∀ k, k < s.regs.txlen.toNat → v.byteAt (0x500 + k) = (swap16 d)[k]?) ∧
      w.regs.status.result = 0x00

/-- R167: under RTU and ASCII, flipping any one bit of a frame that DECODE accepts makes DECODE fail with a framing error:
FRM_CRC under RTU; under ASCII FRM_DELIM for a bit of `:`, CR or LF, and FRM_HEX or FRM_LRC for a bit of a hex character. -/
def Obligations.SingleBitFlipsAreDetected : Prop :=
  ∀ (s s' t : State) (i j : Nat), s.regs.ctrl.binding = 0 ∨ s.regs.ctrl.binding = 1 →
    (∀ k, k < s.regs.rxlen.toNat → (s.byteAt (0xC00 + k)).isSome = true) →
    exec .decode s = .next t → t.regs.status.result = 0x00 ∨ t.regs.status.result = 0x01 →
    i < s.regs.rxlen.toNat → j < 8 → s'.regs.ctrl = s.regs.ctrl → s'.regs.rxlen = s.regs.rxlen →
    (∀ k, k < s.regs.rxlen.toNat → k ≠ i → s'.byteAt (0xC00 + k) = s.byteAt (0xC00 + k)) →
    s'.byteAt (0xC00 + i) = (s.byteAt (0xC00 + i)).map (fun b => b ^^^ BitVec.ofNat 8 (2 ^ j)) →
    ∃ t', exec .decode s' = .next t' ∧ t'.regs.status.rspv = false ∧
      (s.regs.ctrl.binding = 0 → t'.regs.status.result = 0x12) ∧
      (s.regs.ctrl.binding = 1 → i = 0 ∨ s.regs.rxlen.toNat ≤ i + 2 → t'.regs.status.result = 0x14) ∧
      (s.regs.ctrl.binding = 1 → 0 < i → i + 2 < s.regs.rxlen.toNat →
        t'.regs.status.result = 0x13 ∨ t'.regs.status.result = 0x15)
end

