-- ==== Sys2Proof/Laws/Checksum.lean ====
section
/-! SUPPORT. The algebra of the checksum functions: the CRC is linear over exclusive or, the byte sum over append (spec 40 R120 to
R122). -/

namespace Sys2Proof.Machine

/-! ### The CRC -/

/-- One bit of the CRC, the feedback as one exclusive or. -/
theorem crcBit_eq (c : Half) : crcBit c = (c >>> 1) ^^^ (if c.getLsbD 0 then 0xA001 else 0) := by
  unfold crcBit; split <;> simp

theorem crcBit_xor (x y : Half) : crcBit (x ^^^ y) = crcBit x ^^^ crcBit y := by
  rw [crcBit_eq, crcBit_eq, crcBit_eq, BitVec.getLsbD_xor, BitVec.ushiftRight_xor_distrib]
  generalize x >>> 1 = a; generalize y >>> 1 = b
  cases x.getLsbD 0 <;> cases y.getLsbD 0 <;> simp
  · rw [BitVec.xor_assoc]
  · ac_rfl
  · have : a ^^^ 40961#16 ^^^ (b ^^^ 40961#16) = a ^^^ b ^^^ (40961#16 ^^^ 40961#16) := by ac_rfl
    rw [this]; simp

theorem crcBits_xor (n : Nat) (x y : Half) : crcBits n (x ^^^ y) = crcBits n x ^^^ crcBits n y := by
  induction n generalizing x y with
  | zero => rfl
  | succ n ih => rw [crcBits, crcBit_xor, ih]; rfl

/-- A value whose low `n` bits are 0 shifts out with no feedback. -/
theorem crcBits_of_low_zero (n : Nat) (c : Half) (h : ∀ i < n, c.getLsbD i = false) : crcBits n c = c >>> n := by
  induction n generalizing c with
  | zero => simp [crcBits]
  | succ n ih =>
    rw [crcBits, crcBit_eq, h 0 (by omega), ih]
    · apply BitVec.eq_of_getLsbD_eq; intro i hi; simp [BitVec.getLsbD_ushiftRight]; congr 1; omega
    · intro i hi; simp [BitVec.getLsbD_ushiftRight]; exact h (1 + i) (by omega)

/-- The feedback never takes a value other than 0 to 0. -/
theorem crcBit_eq_zero {c : Half} (h : crcBit c = 0) : c = 0 := by
  by_cases hc : c.getLsbD 0 = true
  · have h15 := congrArg (fun x => x.getLsbD 15) h
    unfold crcBit at h15
    rw [if_pos hc] at h15; simp at h15
  · unfold crcBit at h
    rw [if_neg hc] at h
    have h2 := congrArg BitVec.toNat h
    have h3 : c.toNat % 2 = 0 := by
      have : c.getLsbD 0 = false := by simpa using hc
      simp [BitVec.getLsbD, Nat.testBit] at this; omega
    simp [Nat.shiftRight_eq_div_pow] at h2
    apply BitVec.eq_of_toNat_eq; simp; omega

theorem crcBits_eq_zero {n : Nat} {c : Half} (h : crcBits n c = 0) : c = 0 := by
  induction n generalizing c with
  | zero => exact h
  | succ n ih => exact crcBit_eq_zero (ih h)

theorem crcStep_xor (c d : Half) (a b : Byte) : crcStep (c ^^^ d) (a ^^^ b) = crcStep c a ^^^ crcStep d b := by
  unfold crcStep
  rw [← crcBits_xor, BitVec.setWidth_xor]
  congr 1
  ac_rfl

theorem crcFold_append (c : Half) (s t : List Byte) : crcFold c (s ++ t) = crcFold (crcFold c s) t := by simp [crcFold]

/-- The CRC register before a byte sequence can be read back from the one after it. -/
theorem crcFold_injective (s : List Byte) {c d : Half} (h : crcFold c s = crcFold d s) : c = d := by
  induction s generalizing c d with
  | nil => exact h
  | cons b s ih =>
    have h1 : crcStep c b ^^^ crcStep d b = 0 := by rw [ih h]; simp
    rw [← crcStep_xor] at h1
    simpa using crcBits_eq_zero h1

/-- A 16-bit value as its high byte and its low byte. -/
theorem half_eq_high_xor_low (c : Half) : c = ((c >>> 8) <<< 8) ^^^ ((BitVec.ofNat 8 c.toNat).setWidth 16) := by
  apply BitVec.eq_of_getLsbD_eq; intro i hi
  rw [BitVec.getLsbD_xor, BitVec.getLsbD_shiftLeft, BitVec.getLsbD_ushiftRight, BitVec.getLsbD_setWidth]
  by_cases h8 : i < 8
  · simp [h8, hi, BitVec.getLsbD]
    rw [show (256 : Nat) = 2 ^ 8 from rfl, Nat.testBit_mod_two_pow]; simp [h8]
  · have : 8 + (i - 8) = i := by omega
    simp [h8, hi, this]

/-- Eight bits of the CRC: the high byte moves down, the low byte feeds back. -/
theorem crcBits_eight (x : Half) : crcBits 8 x = (x >>> 8) ^^^ crcBits 8 ((BitVec.ofNat 8 x.toNat).setWidth 16) := by
  conv_lhs => rw [half_eq_high_xor_low x]
  rw [crcBits_xor]
  congr 1
  rw [crcBits_of_low_zero]
  · apply BitVec.eq_of_getLsbD_eq; intro i hi
    simp [BitVec.getLsbD_ushiftRight, BitVec.getLsbD_shiftLeft]
    intro hh; have := BitVec.lt_of_getLsbD hh; omega
  · intro i hi; simp [BitVec.getLsbD_shiftLeft, hi]

/-! ### The byte sum -/

@[simp] theorem byteSum_nil : byteSum [] = 0 := rfl
@[simp] theorem byteSum_cons (b : Byte) (s : List Byte) : byteSum (b :: s) = b.toNat + byteSum s := by simp [byteSum]
@[simp] theorem byteSum_append (s t : List Byte) : byteSum (s ++ t) = byteSum s + byteSum t := by simp [byteSum]

/-- The bytes whose last is the LRC of the rest are the ones that sum to 0 modulo 256. -/
theorem byteSum_append_lrc (l : Byte) (s : List Byte) : byteSum (s ++ [l]) % 256 = 0 ↔ l = lrc8 s := by
  have := l.isLt
  rw [byteSum_append, byteSum_cons, byteSum_nil, ← BitVec.toNat_inj]
  simp [lrc8]; omega

end Sys2Proof.Machine
end

