-- ==== Sys2Proof/Laws/Encoding.lean ====
section
/-! SUPPORT. The decoder as a lookup on the opcode byte (spec 30 R84), and the fields of an assembled command word. -/

namespace Sys2Proof

/-- The low byte of a word, as the decoder masks it. -/
theorem and_opcodeMask (w : Word) : w &&& (0xFF : Word) = BitVec.ofNat 32 (w.toNat % 256) := by
  apply BitVec.eq_of_toNat_eq
  have h : w.toNat &&& 255 = w.toNat % 256 := Nat.and_two_pow_sub_one_eq_mod w.toNat 8
  rw [BitVec.toNat_and]
  show w.toNat &&& 255 = _
  rw [h, BitVec.toNat_ofNat]; omega

/-- The decoder's answer for opcode `n` and operand byte `b`. -/
def decodeOpcode (n : Nat) (b : Byte) : Except DecodeReject Instr :=
  match opcodeRows.find? (fun r => BitVec.ofNat 32 n == r.pattern) with
  | some r => .ok (r.build b)
  | none => .error (.reservedOpcode (BitVec.ofNat 8 n))

/-- Decoding depends on the opcode byte and the operand byte alone. -/
theorem decode_eq_decodeOpcode (w : Word) : decode w = decodeOpcode (w.toNat % 256) (operandField w) := by
  have h : opcodeField w = BitVec.ofNat 8 (w.toNat % 256) := by
    apply BitVec.eq_of_toNat_eq; simp [opcodeField]
  unfold decode decodeOpcode
  simp only [opcodeRows, List.find?, and_opcodeMask, h] <;> rfl

theorem operandField_toNat (w : Word) : (operandField w).toNat = w.toNat / 256 % 256 := by simp [operandField]

theorem commandWord_mod (upper : Half) (operand opcode : Byte) :
    (commandWord upper operand opcode).toNat % 256 = opcode.toNat := by
  have := upper.isLt; have := operand.isLt; have := opcode.isLt
  simp [commandWord]; omega

theorem operandField_commandWord (upper : Half) (operand opcode : Byte) :
    operandField (commandWord upper operand opcode) = operand := by
  have := upper.isLt; have := operand.isLt; have := opcode.isLt
  apply BitVec.eq_of_toNat_eq; simp [commandWord, operandField]; omega

end Sys2Proof
end

