-- ==== Sys2Proof/Laws/State.lean ====
section
/-! SUPPORT. One lemma per field per update of the state, so that no later proof unfolds a record update. -/

namespace Sys2Proof.Machine

variable (s : State) (c : Code) (n off : Nat) (v : Word) (st : Status) (g : Regs)

/-! ### `Status.finish` and the W1C write -/

@[simp] theorem Status.finish_result : (st.finish c).result = c.num := rfl
@[simp] theorem Status.finish_done : (st.finish c).done = true := rfl
@[simp] theorem Status.finish_err : (st.finish c).err = (st.err || decide (2 ≤ c.num.toNat)) := rfl
@[simp] theorem Status.finish_exc : (st.finish c).exc = st.exc := rfl
@[simp] theorem Status.finish_reqv : (st.finish c).reqv = st.reqv := rfl
@[simp] theorem Status.finish_rspv : (st.finish c).rspv = st.rspv := rfl

@[simp] theorem Status.w1c_result : (st.w1c v).result = st.result := rfl
@[simp] theorem Status.w1c_exc : (st.w1c v).exc = st.exc := rfl
@[simp] theorem Status.w1c_reqv : (st.w1c v).reqv = st.reqv := rfl
@[simp] theorem Status.w1c_rspv : (st.w1c v).rspv = st.rspv := rfl

/-! ### `State.finish` -/

@[simp] theorem State.finish_status : (s.finish c).regs.status = s.regs.status.finish c := rfl
@[simp] theorem State.finish_ctrl : (s.finish c).regs.ctrl = s.regs.ctrl := rfl
@[simp] theorem State.finish_unit : (s.finish c).regs.unit = s.regs.unit := rfl
@[simp] theorem State.finish_fc : (s.finish c).regs.fc = s.regs.fc := rfl
@[simp] theorem State.finish_txlen : (s.finish c).regs.txlen = s.regs.txlen := rfl
@[simp] theorem State.finish_tid : (s.finish c).regs.tid = s.regs.tid := rfl
@[simp] theorem State.finish_adulen : (s.finish c).regs.adulen = s.regs.adulen := rfl
@[simp] theorem State.finish_rxlen : (s.finish c).regs.rxlen = s.regs.rxlen := rfl
@[simp] theorem State.finish_reqcap : (s.finish c).regs.reqcap = s.regs.reqcap := rfl
@[simp] theorem State.finish_rsphdr : (s.finish c).regs.rsphdr = s.regs.rsphdr := rfl
@[simp] theorem State.finish_rdlen : (s.finish c).regs.rdlen = s.regs.rdlen := rfl
@[simp] theorem State.finish_excreg : (s.finish c).regs.excreg = s.regs.excreg := rfl
@[simp] theorem State.finish_crc : (s.finish c).regs.crc = s.regs.crc := rfl
@[simp] theorem State.finish_lrcsum : (s.finish c).regs.lrcsum = s.regs.lrcsum := rfl
@[simp] theorem State.finish_mem : (s.finish c).mem = s.mem := rfl
@[simp] theorem State.finish_rstN : (s.finish c).rstN = s.rstN := rfl
@[simp] theorem State.finish_port : (s.finish c).port = s.port := rfl
@[simp] theorem State.finish_resp : (s.finish c).resp = s.resp := rfl
@[simp] theorem State.finish_draws : (s.finish c).draws = s.draws := rfl

/-! ### `State.spend` -/

@[simp] theorem State.spend_regs : (s.spend n).regs = s.regs := rfl
@[simp] theorem State.spend_mem : (s.spend n).mem = s.mem := rfl
@[simp] theorem State.spend_rstN : (s.spend n).rstN = s.rstN := rfl
@[simp] theorem State.spend_port : (s.spend n).port = s.port := rfl
@[simp] theorem State.spend_resp : (s.spend n).resp = s.resp := rfl
@[simp] theorem State.spend_draws : (s.spend n).draws = s.draws + n := rfl

/-! ### The resets and the error response -/

@[simp] theorem State.resetRegs_regs : s.resetRegs.regs = Regs.reset := rfl
@[simp] theorem State.resetRegs_mem : s.resetRegs.mem = s.mem := rfl
@[simp] theorem State.resetRegs_rstN : s.resetRegs.rstN = s.rstN := rfl
@[simp] theorem State.resetRegs_port : s.resetRegs.port = s.port := rfl
@[simp] theorem State.resetRegs_resp : s.resetRegs.resp = s.resp := rfl
@[simp] theorem State.resetRegs_draws : s.resetRegs.draws = s.draws := rfl

@[simp] theorem State.warmReset_regs : s.warmReset.regs = Regs.reset := rfl
@[simp] theorem State.warmReset_mem : s.warmReset.mem = s.mem := rfl
@[simp] theorem State.warmReset_rstN : s.warmReset.rstN = false := rfl
@[simp] theorem State.warmReset_port : s.warmReset.port = s.port := rfl
@[simp] theorem State.warmReset_resp : s.warmReset.resp = s.resp := rfl
@[simp] theorem State.warmReset_draws : s.warmReset.draws = s.draws := rfl

@[simp] theorem State.powerOn_regs : s.powerOn.regs = Regs.reset := rfl
@[simp] theorem State.powerOn_mem : s.powerOn.mem = [] := rfl
@[simp] theorem State.powerOn_rstN : s.powerOn.rstN = false := rfl
@[simp] theorem State.powerOn_port : s.powerOn.port = s.port := rfl
@[simp] theorem State.powerOn_resp : s.powerOn.resp = s.resp := rfl
@[simp] theorem State.powerOn_draws : s.powerOn.draws = s.draws := rfl

@[simp] theorem State.releaseReset_regs : s.releaseReset.regs = s.regs := rfl
@[simp] theorem State.releaseReset_mem : s.releaseReset.mem = s.mem := rfl
@[simp] theorem State.releaseReset_rstN : s.releaseReset.rstN = true := rfl
@[simp] theorem State.releaseReset_port : s.releaseReset.port = s.port := rfl
@[simp] theorem State.releaseReset_resp : s.releaseReset.resp = s.resp := rfl
@[simp] theorem State.releaseReset_draws : s.releaseReset.draws = s.draws := rfl

@[simp] theorem State.errorResponse_regs : s.errorResponse.regs = s.regs := rfl
@[simp] theorem State.errorResponse_mem : s.errorResponse.mem = s.mem := rfl
@[simp] theorem State.errorResponse_rstN : s.errorResponse.rstN = s.rstN := rfl
@[simp] theorem State.errorResponse_port : s.errorResponse.port = s.port := rfl
@[simp] theorem State.errorResponse_resp : s.errorResponse.resp = .busError 0 := rfl
@[simp] theorem State.errorResponse_draws : s.errorResponse.draws = s.draws := rfl

/-! ### Bus accesses: everything a served read or a plain write can change -/

/-- A served read changes the port's answer and the draw counter only (R65). -/
theorem State.busRead_eq : s.busRead off = { s with resp := (s.busRead off).resp, draws := (s.busRead off).draws } := by
  unfold State.busRead; split <;> rfl

@[simp] theorem State.busRead_regs : (s.busRead off).regs = s.regs := by rw [State.busRead_eq]
@[simp] theorem State.busRead_mem : (s.busRead off).mem = s.mem := by rw [State.busRead_eq]
@[simp] theorem State.busRead_rstN : (s.busRead off).rstN = s.rstN := by rw [State.busRead_eq]
@[simp] theorem State.busRead_port : (s.busRead off).port = s.port := by rw [State.busRead_eq]

/-- A plain write changes registers, memory and the port's answer only. -/
theorem State.busWrite_eq :
    s.busWrite off v = { s with regs := (s.busWrite off v).regs, mem := (s.busWrite off v).mem, resp := .written } := by
  unfold State.busWrite; split <;> rfl

@[simp] theorem State.busWrite_rstN : (s.busWrite off v).rstN = s.rstN := by rw [State.busWrite_eq]
@[simp] theorem State.busWrite_port : (s.busWrite off v).port = s.port := by rw [State.busWrite_eq]
@[simp] theorem State.busWrite_resp : (s.busWrite off v).resp = .written := by rw [State.busWrite_eq]
@[simp] theorem State.busWrite_draws : (s.busWrite off v).draws = s.draws := by rw [State.busWrite_eq]

/-! ### A write of a register leaves every field that no bus write reaches -/

@[simp] theorem Regs.write_adulen (r : Reg) : (g.write r v).adulen = g.adulen := by cases r <;> rfl
@[simp] theorem Regs.write_reqcap (r : Reg) : (g.write r v).reqcap = g.reqcap := by cases r <;> rfl
@[simp] theorem Regs.write_rsphdr (r : Reg) : (g.write r v).rsphdr = g.rsphdr := by cases r <;> rfl
@[simp] theorem Regs.write_rdlen (r : Reg) : (g.write r v).rdlen = g.rdlen := by cases r <;> rfl
@[simp] theorem Regs.write_excreg (r : Reg) : (g.write r v).excreg = g.excreg := by cases r <;> rfl
@[simp] theorem Regs.write_result (r : Reg) : (g.write r v).status.result = g.status.result := by cases r <;> rfl
@[simp] theorem Regs.write_exc (r : Reg) : (g.write r v).status.exc = g.status.exc := by cases r <;> rfl
@[simp] theorem Regs.write_reqv (r : Reg) : (g.write r v).status.reqv = g.status.reqv := by cases r <;> rfl
@[simp] theorem Regs.write_rspv (r : Reg) : (g.write r v).status.rspv = g.status.rspv := by cases r <;> rfl

/-- Only a write of TID changes TID (R34). -/
theorem Regs.write_tid_of_ne (r : Reg) (h : r ≠ .tid) : (g.write r v).tid = g.tid := by cases r <;> first | rfl | exact absurd rfl h

end Sys2Proof.Machine
end

