-- ==== Sys2Proof/Laws/Memory.lean ====
section
/-! SUPPORT. The laws of memory: read after write, the frame of a write, the canonical form, and reading a run of bytes. -/

namespace Sys2Proof.Machine

/-! ### One byte -/

@[simp] theorem Memory.lookup_nil (a : Nat) : Memory.lookup [] a = none := rfl

@[simp] theorem Memory.lookup_store_same (m : Memory) (a : Nat) (b : Byte) : Memory.lookup (Memory.store m a b) a = some b := by
  induction m with
  | nil => simp [Memory.store, Memory.lookup]
  | cons c m ih =>
    obtain ⟨x, v⟩ := c
    rw [Memory.store]
    split
    · simp [Memory.lookup]
    · split
      · simp [Memory.lookup]
      · next h1 h2 => simp [Memory.lookup, h2, ih]

theorem Memory.lookup_store_other (m : Memory) {a x : Nat} (b : Byte) (h : x ≠ a) :
    Memory.lookup (Memory.store m a b) x = Memory.lookup m x := by
  induction m with
  | nil => simp [Memory.store, Memory.lookup, h]
  | cons c m ih =>
    obtain ⟨y, v⟩ := c
    rw [Memory.store]
    split
    · simp [Memory.lookup, h]
    · split
      · next h1 h2 => subst h2; simp [Memory.lookup, h]
      · simp only [Memory.lookup]
        split
        · rfl
        · exact ih

/-- Every address that a store lists is the stored one or was listed. -/
theorem Memory.mem_store {m : Memory} {a : Nat} {b : Byte} {c : Host.Cell} (h : c ∈ Memory.store m a b) :
    c = (a, b) ∨ c ∈ m := by
  induction m with
  | nil => simpa [Memory.store] using h
  | cons d m ih =>
    obtain ⟨x, v⟩ := d
    rw [Memory.store] at h
    split at h
    · simpa using h
    · split at h
      · rcases List.mem_cons.mp h with h | h
        · exact .inl h
        · exact .inr (List.mem_cons_of_mem _ h)
      · rcases List.mem_cons.mp h with h | h
        · exact .inr (by simp [h])
        · rcases ih h with h | h
          · exact .inl h
          · exact .inr (List.mem_cons_of_mem _ h)

/-- A store keeps the canonical form. -/
theorem Memory.wf_store {m : Memory} (h : Memory.wf m) (a : Nat) (b : Byte) : Memory.wf (Memory.store m a b) := by
  induction m with
  | nil => simp [Memory.store, Memory.wf]
  | cons c m ih =>
    obtain ⟨x, v⟩ := c
    obtain ⟨hx, hm⟩ := List.pairwise_cons.mp h
    rw [Memory.store]
    split
    · next h1 =>
      refine List.pairwise_cons.mpr ⟨fun c hc => ?_, h⟩
      rcases List.mem_cons.mp hc with rfl | hc
      · exact h1
      · exact Nat.lt_trans h1 (hx c hc)
    · split
      · next h1 h2 => subst h2; exact List.pairwise_cons.mpr ⟨hx, hm⟩
      · next h1 h2 =>
        refine List.pairwise_cons.mpr ⟨fun c hc => ?_, ih hm⟩
        rcases Memory.mem_store hc with rfl | hc
        · show x < a; omega
        · exact hx c hc

/-- In canonical form a listed byte is the byte its address reads as. -/
theorem Memory.lookup_of_mem {m : Memory} (h : Memory.wf m) {c : Host.Cell} (hc : c ∈ m) : Memory.lookup m c.1 = some c.2 := by
  induction m with
  | nil => simp at hc
  | cons d m ih =>
    obtain ⟨hd, hm⟩ := List.pairwise_cons.mp h
    rcases List.mem_cons.mp hc with rfl | hin
    · simp [Memory.lookup]
    · have : c.1 ≠ d.1 := Nat.ne_of_gt (hd c hin)
      obtain ⟨x, v⟩ := d
      simp only [Memory.lookup]
      rw [if_neg this]
      exact ih hm hin

/-! ### A run of bytes -/

/-- A run of stored bytes: the bytes where they stand, every other byte as before. -/
theorem Memory.lookup_storeBytes (m : Memory) (base : Nat) (bs : List Byte) (a : Nat) :
    Memory.lookup (Memory.storeBytes m base bs) a =
      if base ≤ a ∧ a < base + bs.length then bs[a - base]? else Memory.lookup m a := by
  induction bs generalizing m base with
  | nil => simp [Memory.storeBytes]
  | cons b bs ih =>
    rw [Memory.storeBytes, ih]
    by_cases ha : a = base
    · subst ha; simp
    · rw [Memory.lookup_store_other _ _ ha]
      by_cases h : base + 1 ≤ a ∧ a < base + 1 + bs.length
      · have h' : base ≤ a ∧ a < base + (b :: bs).length := by simp; omega
        rw [if_pos h, if_pos h']
        obtain ⟨k, hk⟩ : ∃ k, a - base = k + 1 := ⟨a - base - 1, by omega⟩
        have : a - (base + 1) = k := by omega
        rw [hk, this]; rfl
      · have h' : ¬(base ≤ a ∧ a < base + (b :: bs).length) := by simp at h ⊢; omega
        rw [if_neg h, if_neg h']

theorem Memory.wf_storeBytes {m : Memory} (h : Memory.wf m) (base : Nat) (bs : List Byte) :
    Memory.wf (Memory.storeBytes m base bs) := by
  induction bs generalizing m base with
  | nil => exact h
  | cons b bs ih => exact ih (Memory.wf_store h base b) (base + 1)

/-- The bytes from `base` on, as a function of the offset inside the run. -/
theorem readBytes_eq_map (m : Memory) (draws base n : Nat) :
    readBytes m draws base n = (List.range n).map (fun k => readByte m (base + k) (draws + k)) := by
  induction n generalizing draws base with
  | zero => rfl
  | succ n ih =>
    rw [readBytes, ih, List.range_succ_eq_map, List.map_cons, List.map_map]
    refine congrArg₂ _ rfl (List.map_congr_left fun k _ => ?_)
    show readByte m (base + 1 + k) (draws + 1 + k) = readByte m (base + (k + 1)) (draws + (k + 1))
    rw [Nat.add_right_comm base, Nat.add_right_comm draws]; rfl

/-- A command's operand bytes are the buffer's bytes in the words claims use. -/
theorem State.operandBytes_eq_bufferBytes (s : State) (base n : Nat) : s.operandBytes base n = s.bufferBytes base n :=
  readBytes_eq_map _ _ _ _

@[simp] theorem State.bufferBytes_length (s : State) (base n : Nat) : (s.bufferBytes base n).length = n := by
  simp [State.bufferBytes]

/-- The k-th byte of a run that was written is that byte. -/
theorem State.bufferBytes_getElem?_of_written {s : State} {base n k : Nat} {b : Byte} (hk : k < n)
    (hb : s.byteAt (base + k) = some b) : (s.bufferBytes base n)[k]? = some b := by
  simp [State.bufferBytes, hk, hb]

/-- Two states whose written bytes agree over a run read the same run. -/
theorem State.bufferBytes_congr {s t : State} {base n : Nat}
    (h : ∀ k, k < n → (s.byteAt (base + k)).isSome = true ∧ t.byteAt (base + k) = s.byteAt (base + k)) :
    t.bufferBytes base n = s.bufferBytes base n := by
  refine List.map_congr_left fun k hk => ?_
  obtain ⟨hs, ht⟩ := h k (List.mem_range.mp hk)
  obtain ⟨b, hb⟩ := Option.isSome_iff_exists.mp hs
  simp [ht, hb]

/-- A run of written bytes is the list of its bytes. -/
theorem State.bufferBytes_eq_of_written {s : State} {base : Nat} {bs : List Byte}
    (h : ∀ k, k < bs.length → s.byteAt (base + k) = bs[k]?) : s.bufferBytes base bs.length = bs := by
  refine List.ext_getElem? fun k => ?_
  by_cases hk : k < bs.length
  · have := h k hk
    rw [List.getElem?_eq_getElem hk] at this ⊢
    exact State.bufferBytes_getElem?_of_written hk this
  · rw [List.getElem?_eq_none (by simp; omega), List.getElem?_eq_none (by omega)]

end Sys2Proof.Machine
end

