-- ==== Sys2Proof/Laws/Step.lean ====
section
/-! SUPPORT. What a step and each command can do, said once: later proofs cite these instead of unfolding the machine. -/

namespace Sys2Proof.Machine

/-! ### The register map -/

/-- An offset names a register exactly where it is that register's offset. -/
theorem regionAt_reg {off : Nat} {r : Reg} (h : regionAt off = .reg r) : off = r.offset := by
  unfold regionAt at h
  repeat' split at h
  all_goals try cases h
  next hf => have := List.find?_some hf; exact (beq_iff_eq.mp this).symm

@[simp] theorem regionAt_offset (r : Reg) : regionAt r.offset = .reg r := by cases r <;> decide

/-! ### The step -/

/-- Everything a step that goes on can do. -/
inductive StepCases (s t : State) : Prop where
  | idle (hp : s.port = []) (ht : t = s)
  | read (a : BitVec 12) (rest : List HostEvent) (hs : serves s (.read 32 a) rest) (ha : a.toNat % 4 = 0)
      (ht : t = State.busRead { s with port := rest } a.toNat)
  | write (a : BitVec 12) (v : Word) (rest : List HostEvent) (hs : serves s (.write 32 a v) rest) (ha : a.toNat % 4 = 0)
      (hc : a ≠ 0x00C) (ht : t = State.busWrite { s with port := rest } a.toNat v)
  | command (v : Word) (i : Instr) (rest : List HostEvent) (hs : serves s (.write 32 0x00C v) rest) (hd : decode v = .ok i)
      (ht : exec i { s with port := rest, resp := .written } = .next t)
  | reserved (v : Word) (x : DecodeReject) (rest : List HostEvent) (hs : serves s (.write 32 0x00C v) rest)
      (hd : decode v = .error x) (ht : t = State.finish { s with port := rest, resp := .written } .errBadcmd)
  | error (e : HostEvent) (rest : List HostEvent) (hs : serves s e rest) (he : e.isAccess = true)
      (hw : e.wellShaped = false) (ht : t = State.errorResponse { s with port := rest })
  | resetLow (rest : List HostEvent) (hp : s.port = .resetLow :: rest) (ht : t = State.warmReset { s with port := rest })
  | resetHigh (rest : List HostEvent) (hp : s.port = .resetHigh :: rest) (ht : t = State.releaseReset { s with port := rest })
  | powerOn (rest : List HostEvent) (hp : s.port = .powerOn :: rest) (ht : t = State.powerOn { s with port := rest })

theorem wellShaped_iff (w : Nat) (a : BitVec 12) : wellShaped w a = true ↔ w = 32 ∧ a.toNat % 4 = 0 := by
  simp [wellShaped, Config.regWidth]

theorem toNat_eq_cmd_iff (a : BitVec 12) : a.toNat = Reg.cmd.offset ↔ a = 0x00C := by
  constructor
  · intro h; exact BitVec.eq_of_toNat_eq (by simpa [Reg.offset] using h)
  · rintro rfl; rfl

theorem busError_next {off : BitVec 12} {s t : State} (h : busError off s = .next t) : t = s.errorResponse := by
  unfold busError at h
  split at h <;> cases h
  rfl

theorem step_cases {s t : State} (h : step s = .next t) : StepCases s t := by
  unfold step serveNext at h
  split at h
  · next hp => cases h; exact .idle hp rfl
  · next e rest hp =>
    unfold serveEvent at h
    split at h
    · next w a =>
      split at h
      · next hr =>
        have hr : s.rstN = true := hr
        split at h
        · next hw =>
          obtain ⟨rfl, ha⟩ := (wellShaped_iff w a).mp hw
          cases h; exact .read a rest ⟨hr, hp⟩ ha rfl
        · next hw => exact .error _ rest ⟨hr, hp⟩ rfl (by simpa [HostEvent.wellShaped] using hw) (busError_next h)
      · cases h
    · next w a v =>
      split at h
      · next hr =>
        have hr : s.rstN = true := hr
        split at h
        · next hw =>
          obtain ⟨rfl, ha⟩ := (wellShaped_iff w a).mp hw
          split at h
          · next hc =>
            obtain rfl := (toNat_eq_cmd_iff a).mp hc
            unfold issueCommand at h
            split at h
            · next i hd => exact .command v i rest ⟨hr, hp⟩ hd h
            · next x hd => cases h; exact .reserved v x rest ⟨hr, hp⟩ hd rfl
          · next hc =>
            cases h; exact .write a v rest ⟨hr, hp⟩ ha (fun e => hc ((toNat_eq_cmd_iff a).mpr e)) rfl
        · next hw => exact .error _ rest ⟨hr, hp⟩ rfl (by simpa [HostEvent.wellShaped] using hw) (busError_next h)
      · cases h
    · cases h; exact .resetLow rest hp rfl
    · cases h; exact .resetHigh rest hp rfl
    · cases h; exact .powerOn rest hp rfl

/-- A step on a well-formed CMD write, as a rewriting rule. -/
theorem step_of_serves_cmd {s : State} {v : Word} {rest : List HostEvent} (h : serves s (.write 32 0x00C v) rest) :
    step s = issueCommand v { s with port := rest } := by
  obtain ⟨hr, hp⟩ := h
  unfold step serveNext
  rw [hp]
  simp only [serveEvent, hr]
  rfl

/-- A step on a read of the served shape, as a rewriting rule. -/
theorem step_of_serves_read {s : State} {a : BitVec 12} {rest : List HostEvent} (h : serves s (.read 32 a) rest)
    (ha : a.toNat % 4 = 0) : step s = .next (State.busRead { s with port := rest } a.toNat) := by
  obtain ⟨hr, hp⟩ := h
  unfold step serveNext
  rw [hp]
  simp only [serveEvent, hr, (wellShaped_iff 32 a).mpr ⟨rfl, ha⟩, if_true]

/-- A step on a plain write of the served shape, as a rewriting rule. -/
theorem step_of_serves_write {s : State} {a : BitVec 12} {v : Word} {rest : List HostEvent}
    (h : serves s (.write 32 a v) rest) (ha : a.toNat % 4 = 0) (hc : a ≠ 0x00C) :
    step s = .next (State.busWrite { s with port := rest } a.toNat v) := by
  obtain ⟨hr, hp⟩ := h
  unfold step serveNext
  rw [hp]
  simp only [serveEvent, hr, (wellShaped_iff 32 a).mpr ⟨rfl, ha⟩, if_true]
  rw [if_neg (fun e => hc ((toNat_eq_cmd_iff a).mp e))]

/-! ### Runs -/

theorem runsFor_zero (s : State) : runsFor 0 s s := rfl

/-- A run goes on with the run from the next state. -/
theorem runsFor_succ {s u t : State} {n : Nat} (hs : step s = .next u) (h : runsFor n u t) : runsFor (n + 1) s t := by
  unfold runsFor runSteps
  rw [hs]
  exact h

/-- The run of claims is the run of the host's interface. -/
theorem core_run_eq_runSteps (n : Nat) (s : State) : Host.Core.run Sys2Proof.core n s = runSteps n s := by
  induction n generalizing s with
  | zero => rfl
  | succ n ih =>
    have hrun : ∀ (M : Host.Core) (x y : M.State), M.step x = .next y → M.run (n + 1) x = M.run n y := by
      intro M x y h; rw [Host.Core.run, h]
    have hfault : ∀ (M : Host.Core) (x : M.State) (f : M.Fault), M.step x = .fault f → M.run (n + 1) x = .fault f := by
      intro M x f h; rw [Host.Core.run, h]
    have hrefused : ∀ (M : Host.Core) (x : M.State) (r : M.Refusal), M.step x = .refused r → M.run (n + 1) x = .refused r := by
      intro M x r h; rw [Host.Core.run, h]
    rw [runSteps]
    cases h : step s with
    | next t => exact (hrun Sys2Proof.core s t h).trans (ih t)
    | fault f => exact hfault Sys2Proof.core s f h
    | refused r => exact hrefused Sys2Proof.core s r h

/-! ### What a plain write does -/

/-- A plain write changes one register, or four bytes of TXDATA or RXBUF, or nothing but the port's answer. -/
theorem State.busWrite_cases (s : State) (off : Nat) (v : Word) :
    (∃ r, off = r.offset ∧ s.busWrite off v = { s with regs := s.regs.write r v, resp := .written }) ∨
    (((0x400 ≤ off ∧ off ≤ 0x4FF) ∨ (0xC00 ≤ off ∧ off ≤ 0xFFF)) ∧
      s.busWrite off v = { s with mem := Memory.storeBytes s.mem off (bytesOfWord v), resp := .written }) ∨
    s.busWrite off v = { s with resp := .written } := by
  unfold State.busWrite
  split
  · next r h => exact .inl ⟨r, regionAt_reg h, rfl⟩
  · next h =>
    refine .inr (.inl ⟨.inl ?_, rfl⟩)
    unfold regionAt at h
    repeat' split at h
    all_goals first | assumption | cases h
  · next h =>
    refine .inr (.inl ⟨.inr ?_, rfl⟩)
    unfold regionAt at h
    repeat' split at h
    all_goals first | assumption | cases h
  · exact .inr (.inr rfl)
  · exact .inr (.inr rfl)
  · exact .inr (.inr rfl)

/-! ### Bindings -/

theorem Ctrl.bindingOf_eq_none (c : Ctrl) : c.bindingOf = none ↔ c.binding = 3 := by
  obtain ⟨b, _, _, _, _, _⟩ := c
  revert b; simp only [Ctrl.bindingOf]; decide

theorem Ctrl.bindingOf_eq_rtu (c : Ctrl) : c.bindingOf = some .rtu ↔ c.binding = 0 := by
  obtain ⟨b, _, _, _, _, _⟩ := c
  revert b; simp only [Ctrl.bindingOf]; decide

theorem Ctrl.bindingOf_eq_ascii (c : Ctrl) : c.bindingOf = some .ascii ↔ c.binding = 1 := by
  obtain ⟨b, _, _, _, _, _⟩ := c
  revert b; simp only [Ctrl.bindingOf]; decide

theorem Ctrl.bindingOf_eq_tcp (c : Ctrl) : c.bindingOf = some .tcp ↔ c.binding = 2 := by
  obtain ⟨b, _, _, _, _, _⟩ := c
  revert b; simp only [Ctrl.bindingOf]; decide

/-! ### The framing commands -/

/-- The state a successful ENCODE leaves: the shared operation over the state whose operand bytes were read. -/
def encodeDone (s : State) (b : Binding) : State :=
  (s.spend s.regs.txlen.toNat).encodeAdu b (swapIf s.regs.ctrl.refout (s.bufferBytes 0x400 s.regs.txlen.toNat))

/-- Everything ENCODE can do (R140). -/
theorem execEncode_cases (s : State) :
    (s.regs.ctrl.binding = 3 ∧ exec .encode s = .next (s.encodeFail .errConfig)) ∨
    (∃ b, s.regs.ctrl.bindingOf = some b ∧ 252 < s.regs.txlen.toNat ∧ exec .encode s = .next (s.encodeFail .errTxlen)) ∨
    (∃ b, s.regs.ctrl.bindingOf = some b ∧ s.regs.txlen.toNat ≤ 252 ∧ exec .encode s = .next (encodeDone s b)) := by
  show (_ ∧ execEncode s = _) ∨ (∃ b, _ ∧ _ ∧ execEncode s = _) ∨ (∃ b, _ ∧ _ ∧ execEncode s = _)
  unfold execEncode
  split
  · next h => exact .inl ⟨(Ctrl.bindingOf_eq_none _).mp h, rfl⟩
  · next b h =>
    by_cases hl : Config.maxData < s.regs.txlen.toNat
    · exact .inr (.inl ⟨b, h, hl, if_pos hl⟩)
    · refine .inr (.inr ⟨b, h, Nat.le_of_not_lt hl, ?_⟩)
      rw [if_neg hl, encodeDone, ← State.operandBytes_eq_bufferBytes]; rfl

/-- The state DECODE leaves once RXLEN is in range. -/
def decodeDone (s : State) (b : Binding) : State :=
  (s.spend s.regs.rxlen.toNat).decodeFrame b (s.bufferBytes 0xC00 s.regs.rxlen.toNat)

/-- Everything DECODE can do before it looks at the frame (R150). -/
theorem execDecode_cases (s : State) :
    (s.regs.ctrl.binding = 3 ∧ exec .decode s = .next (s.decodeFail .errConfig)) ∨
    (∃ b, s.regs.ctrl.bindingOf = some b ∧ s.regs.rxlen.toNat < minAdu b ∧
      exec .decode s = .next (s.decodeFail .frmTruncated)) ∨
    (∃ b, s.regs.ctrl.bindingOf = some b ∧ maxAdu b < s.regs.rxlen.toNat ∧
      exec .decode s = .next (s.decodeFail .frmTooLong)) ∨
    (∃ b, s.regs.ctrl.bindingOf = some b ∧ minAdu b ≤ s.regs.rxlen.toNat ∧ s.regs.rxlen.toNat ≤ maxAdu b ∧
      exec .decode s = .next (decodeDone s b)) := by
  show (_ ∧ execDecode s = _) ∨ (∃ b, _ ∧ _ ∧ execDecode s = _) ∨ (∃ b, _ ∧ _ ∧ execDecode s = _) ∨
    (∃ b, _ ∧ _ ∧ _ ∧ execDecode s = _)
  unfold execDecode
  split
  · next h => exact .inl ⟨(Ctrl.bindingOf_eq_none _).mp h, rfl⟩
  · next b h =>
    by_cases h1 : s.regs.rxlen.toNat < minAdu b
    · exact .inr (.inl ⟨b, h, h1, if_pos h1⟩)
    · by_cases h2 : maxAdu b < s.regs.rxlen.toNat
      · exact .inr (.inr (.inl ⟨b, h, h2, by rw [if_neg h1, if_pos h2]⟩))
      · refine .inr (.inr (.inr ⟨b, h, Nat.le_of_not_lt h1, Nat.le_of_not_lt h2, ?_⟩))
        rw [if_neg h1, if_neg h2, decodeDone, ← State.operandBytes_eq_bufferBytes]; rfl

/-- Everything DECODE can do with a frame (R150, R160, R161). -/
theorem State.decodeFrame_cases (s : State) (b : Binding) (r : List Byte) :
    (∃ c, parseAdu b r = .error c ∧ s.decodeFrame b r = s.decodeFail c) ∨
    (∃ fr, parseAdu b r = .ok fr ∧ isException fr.fc = true ∧ fr.data.length ≠ 1 ∧
      s.decodeFrame b r = s.decodeFail .frmExcLen) ∨
    (∃ fr code, parseAdu b r = .ok fr ∧ isException fr.fc = true ∧ fr.data = [code] ∧
      s.decodeFrame b r = s.latchException fr code) ∨
    (∃ fr, parseAdu b r = .ok fr ∧ isException fr.fc = false ∧
      s.decodeFrame b r = s.latchReply fr (swapIf s.regs.ctrl.refin fr.data)) := by
  unfold State.decodeFrame
  split
  · next c h => exact .inl ⟨c, h, rfl⟩
  · next fr h =>
    split
    · next hx =>
      split
      · next code hd => exact .inr (.inr (.inl ⟨fr, code, h, hx, hd, rfl⟩))
      · next hd =>
        refine .inr (.inl ⟨fr, h, hx, fun hl => ?_, rfl⟩)
        obtain ⟨x, hx⟩ := List.length_eq_one_iff.mp hl
        exact hd x hx
    · next hx => exact .inr (.inr (.inr ⟨fr, h, by simpa using hx, rfl⟩))

/-- VERIFY reports one code and changes nothing else (R170). -/
theorem exec_verify (s : State) : exec .verify s = .next (s.finish (verifyCode s.regs)) := rfl

end Sys2Proof.Machine
end

