-- ==== Sys2Proof/Laws/Framing.lean ====
section
/-! SUPPORT. What each command can do to registers and memory, said once, and the small lemmas of frames (spec 41, 30 R94, R95). -/

namespace Sys2Proof.Machine

/-! ### Runs of stored bytes -/

theorem storesOnly_storeBytes (s : State) (base : Nat) (bs : List Byte) (t : State)
    (h : t.mem = Memory.storeBytes s.mem base bs) : storesOnly s t base bs := fun a => by
  unfold State.byteAt; rw [h]; exact Memory.lookup_storeBytes _ _ _ _

/-- A stored byte reads as the byte stored. -/
theorem storesOnly.at {s t : State} {base : Nat} {bs : List Byte} (h : storesOnly s t base bs) {k : Nat} (hk : k < bs.length) :
    t.byteAt (base + k) = bs[k]? := by
  rw [h, if_pos (by omega), Nat.add_sub_cancel_left]

/-- A store leaves no written byte unwritten. -/
theorem storesOnly.isSome {s t : State} {base : Nat} {bs : List Byte} (h : storesOnly s t base bs) {a : Nat}
    (ha : (s.byteAt a).isSome = true) : (t.byteAt a).isSome = true := by
  rw [h a]; split
  · next hh => rw [List.getElem?_eq_getElem (by omega)]; rfl
  · exact ha

/-! ### Hex characters -/

theorem hexValue_hexDigit : ∀ n < 16, hexValue (hexDigit n) = some n := by decide

/-- A character with a value is the digit of that value. -/
theorem hexDigit_of_hexValue {c : Byte} {n : Nat} (h : hexValue c = some n) : n < 16 ∧ hexDigit n = c := by
  unfold hexValue at h; split at h
  · injection h with h; subst h
    refine ⟨by omega, ?_⟩
    unfold hexDigit; rw [if_pos (by omega)]; apply BitVec.eq_of_toNat_eq; have := c.isLt; simp; omega
  · split at h
    · injection h with h; subst h
      refine ⟨by omega, ?_⟩
      unfold hexDigit; rw [if_neg (by omega)]; apply BitVec.eq_of_toNat_eq; have := c.isLt; simp; omega
    · cases h

/-! ### Plain register writes -/

/-- No plain write reaches RESULT, the capture flags, the captures or the lengths the MCF reports; TID has a write of its own. -/
theorem Regs.write_frame (g : Regs) (r : Reg) (v : Word) :
    (g.write r v).status.result = g.status.result ∧ (g.write r v).status.exc = g.status.exc ∧
    (g.write r v).status.reqv = g.status.reqv ∧ (g.write r v).status.rspv = g.status.rspv ∧
    (g.write r v).adulen = g.adulen ∧ (g.write r v).reqcap = g.reqcap ∧ (g.write r v).rsphdr = g.rsphdr ∧
    (g.write r v).rdlen = g.rdlen ∧ (g.write r v).excreg = g.excreg ∧ (r ≠ .tid → (g.write r v).tid = g.tid) := by
  cases r <;> exact ⟨rfl, rfl, rfl, rfl, rfl, rfl, rfl, rfl, rfl, fun h => by first | rfl | exact absurd rfl h⟩

/-! ### Commands -/

/-- A command that is no ENCODE, DECODE or SRESET writes CRC, LRCSUM, RESULT, DONE, ERR and the draw counter at most. -/
theorem exec_small_frame {i : Instr} {s t : State} (h : exec i s = .next t) (h1 : i ≠ .encode) (h2 : i ≠ .decode)
    (h3 : i ≠ .sreset) :
    ∃ c l r d e n,
      t = { s with
        draws := s.draws + n
        regs := { s.regs with crc := c, lrcsum := l, status := { s.regs.status with result := r, done := d, err := e } } } ∧
      (r = s.regs.status.result ∨ ∃ x : Code, r = x.num) := by
  cases i with
  | encode => exact absurd rfl h1
  | decode => exact absurd rfl h2
  | sreset => exact absurd rfl h3
  | crcBuf =>
    by_cases hh : Config.rxbufSize < s.regs.rxlen.toNat
    · have e : exec .crcBuf s = _ := if_pos hh
      rw [e] at h; cases h; exact ⟨_, _, _, _, _, 0, rfl, .inr ⟨_, rfl⟩⟩
    · have e : exec .crcBuf s = _ := if_neg hh
      rw [e] at h; cases h; exact ⟨_, _, _, _, _, _, rfl, .inr ⟨.ok, rfl⟩⟩
  | lrcBuf =>
    by_cases hh : Config.rxbufSize < s.regs.rxlen.toNat
    · have e : exec .lrcBuf s = _ := if_pos hh
      rw [e] at h; cases h; exact ⟨_, _, _, _, _, 0, rfl, .inr ⟨_, rfl⟩⟩
    · have e : exec .lrcBuf s = _ := if_neg hh
      rw [e] at h; cases h; exact ⟨_, _, _, _, _, _, rfl, .inr ⟨.ok, rfl⟩⟩
  | verify => cases h; exact ⟨_, _, _, _, _, 0, rfl, .inr ⟨_, rfl⟩⟩
  | nop => cases h; exact ⟨_, _, _, _, _, 0, rfl, .inl rfl⟩
  | crcInit => cases h; exact ⟨_, _, _, _, _, 0, rfl, .inl rfl⟩
  | crcByte b => cases h; exact ⟨_, _, _, _, _, 0, rfl, .inl rfl⟩
  | lrcInit => cases h; exact ⟨_, _, _, _, _, 0, rfl, .inl rfl⟩
  | lrcByte b => cases h; exact ⟨_, _, _, _, _, 0, rfl, .inl rfl⟩

/-- The ADU that a successful ENCODE of the binding assembles. -/
def encodedAdu (s : State) (b : Binding) : List Byte :=
  aduOf b s.regs.tid s.regs.unit s.regs.fc (swapIf s.regs.ctrl.refout (s.bufferBytes 0x400 s.regs.txlen.toNat))

/-- Everything a successful ENCODE writes (R147). -/
theorem encodeDone_eq (s : State) (b : Binding) :
    encodeDone s b = { s with
      draws := s.draws + s.regs.txlen.toNat
      mem := Memory.storeBytes s.mem 0x800 (encodedAdu s b)
      regs := { s.regs with
        adulen := BitVec.ofNat 11 (encodedAdu s b).length
        reqcap := { tid := captureTid b s.regs.tid, fc := s.regs.fc, unit := s.regs.unit }
        tid := nextTid b s.regs.tid
        status := { s.regs.status with result := 0x00, done := true, reqv := true, rspv := false } } } := by
  simp [encodeDone, State.encodeAdu, State.finish, Status.finish, Code.num, State.spend, encodedAdu, txbufBase]

/-- A parser's failure is a framing error: it sets ERR. -/
theorem parseAdu_error_sets_err {b : Binding} {r : List Byte} {c : Code} (h : parseAdu b r = .error c) : 2 ≤ c.num.toNat := by
  cases b <;> simp only [parseAdu, parseRtu, parseAscii, parseTcp] at h <;> (repeat' split at h) <;> cases h
  all_goals decide

/-- Everything DECODE can do, in the operations it is built from. -/
theorem execDecode_shape {s t : State} (h : exec .decode s = .next t) :
    (∃ c n, t = (s.spend n).decodeFail c) ∨
    (∃ b fr, s.regs.ctrl.bindingOf = some b ∧ minAdu b ≤ s.regs.rxlen.toNat ∧ s.regs.rxlen.toNat ≤ maxAdu b ∧
      parseAdu b (s.bufferBytes 0xC00 s.regs.rxlen.toNat) = .ok fr ∧
      ((∃ code, isException fr.fc = true ∧ fr.data = [code] ∧ t = (s.spend s.regs.rxlen.toNat).latchException fr code) ∨
        (isException fr.fc = false ∧
          t = (s.spend s.regs.rxlen.toNat).latchReply fr (swapIf s.regs.ctrl.refin fr.data)))) := by
  rcases execDecode_cases s with ⟨_, e⟩ | ⟨b, _, _, e⟩ | ⟨b, _, _, e⟩ | ⟨b, hb, h1, h2, e⟩ <;> rw [e] at h <;> cases h
  · exact .inl ⟨_, 0, rfl⟩
  · exact .inl ⟨_, 0, rfl⟩
  · exact .inl ⟨_, 0, rfl⟩
  · unfold decodeDone
    rcases State.decodeFrame_cases (s.spend s.regs.rxlen.toNat) b (s.bufferBytes 0xC00 s.regs.rxlen.toNat) with
      ⟨c, _, e⟩ | ⟨fr, _, _, _, e⟩ | ⟨fr, code, hp, hx, hd, e⟩ | ⟨fr, hp, hx, e⟩ <;> rw [e]
    · exact .inl ⟨_, _, rfl⟩
    · exact .inl ⟨_, _, rfl⟩
    · exact .inr ⟨b, fr, hb, h1, h2, hp, .inl ⟨code, hx, hd, rfl⟩⟩
    · exact .inr ⟨b, fr, hb, h1, h2, hp, .inr ⟨hx, rfl⟩⟩

/-- `fc & 0x7F` as arithmetic. -/
theorem maskFc_eq (f : Byte) : maskFc f = BitVec.ofNat 8 (f.toNat % 128) := by
  apply BitVec.eq_of_toNat_eq
  have h : f.toNat &&& 127 = f.toNat % 128 := Nat.and_two_pow_sub_one_eq_mod f.toNat 7
  have := f.isLt
  simp [maskFc, BitVec.toNat_and]; omega

end Sys2Proof.Machine
end

