-- ==== Sys2Proof/Laws/PerInstr.lean ====
section
/-! SUPPORT. Statements made per instruction. -/

namespace Sys2Proof.Laws.OpcodeRow

/-- The opcode map has a row for the command: its opcode under the mask 0xFF, and its operand byte builds the command (R81). -/
def Statement (i : Instr) : Prop :=
  ∃ r ∈ opcodeRows, r.pattern = BitVec.ofNat 32 i.opcode.toNat ∧ r.mask = 0x000000FF ∧
    ∀ spare : Byte, r.build (i.operand?.getD spare) = i

theorem nop : Statement .nop := ⟨opcodeRows[0], by simp [opcodeRows], rfl, rfl, fun _ => rfl⟩
theorem crcInit : Statement .crcInit := ⟨opcodeRows[1], by simp [opcodeRows], rfl, rfl, fun _ => rfl⟩
theorem crcByte (b : Byte) : Statement (.crcByte b) := ⟨opcodeRows[2], by simp [opcodeRows], rfl, rfl, fun _ => rfl⟩
theorem crcBuf : Statement .crcBuf := ⟨opcodeRows[3], by simp [opcodeRows], rfl, rfl, fun _ => rfl⟩
theorem lrcInit : Statement .lrcInit := ⟨opcodeRows[4], by simp [opcodeRows], rfl, rfl, fun _ => rfl⟩
theorem lrcByte (b : Byte) : Statement (.lrcByte b) := ⟨opcodeRows[5], by simp [opcodeRows], rfl, rfl, fun _ => rfl⟩
theorem lrcBuf : Statement .lrcBuf := ⟨opcodeRows[6], by simp [opcodeRows], rfl, rfl, fun _ => rfl⟩
theorem encode : Statement .encode := ⟨opcodeRows[7], by simp [opcodeRows], rfl, rfl, fun _ => rfl⟩
theorem decode : Statement .decode := ⟨opcodeRows[8], by simp [opcodeRows], rfl, rfl, fun _ => rfl⟩
theorem verify : Statement .verify := ⟨opcodeRows[9], by simp [opcodeRows], rfl, rfl, fun _ => rfl⟩
theorem sreset : Statement .sreset := ⟨opcodeRows[10], by simp [opcodeRows], rfl, rfl, fun _ => rfl⟩

end Sys2Proof.Laws.OpcodeRow

namespace Sys2Proof

/-- No two rows of the opcode map match a common word (R84). -/
theorem opcodeRows_disjoint : opcodeRows.Pairwise (fun r q => r.mask = q.mask ∧ r.pattern ≠ q.pattern) := by
  simp [opcodeRows]

end Sys2Proof
end

