-- ==== Sys2Proof/Tests/Slice0.lean ====
section
/-! SUPPORT. Tests of single steps, with the values of spec/95_test_vectors.md (the vector is named at each test), and for every
statement that has hypotheses a concrete state that meets them (`witness_<statement>`). -/

namespace Sys2Proof.Tests

open Sys2Proof Sys2Proof.Machine

/-! ### Small states -/

/-- The state after reset with these registers. -/
def withRegs (g : Regs) : State := { State.reset with regs := g }

/-- The state after reset with these events presented at the port. -/
def atPort (l : List HostEvent) : State := { State.reset with port := l }

/-- CTRL with the binding `b` and the swap flags. -/
def ctrlOf (b : BitVec 2) (refout refin : Bool) : Ctrl := { Ctrl.reset with binding := b, refout := refout, refin := refin }

/-- Request registers and TXDATA for one ENCODE of unit id 1. -/
def request (b : BitVec 2) (refout : Bool) (fc : Byte) (tid : Half) (d : List Byte) : State :=
  { State.reset with
    regs := { Regs.reset with ctrl := ctrlOf b refout false, unit := 0x01, fc := fc, tid := tid, txlen := BitVec.ofNat 10 d.length }
    mem := Memory.storeBytes [] 0x400 d }

/-- RXBUF and RXLEN hold a received frame. -/
def received (b : BitVec 2) (refin : Bool) (frame : List Byte) : State :=
  { State.reset with
    regs := { Regs.reset with ctrl := ctrlOf b false refin, rxlen := BitVec.ofNat 11 frame.length }
    mem := Memory.storeBytes [] 0xC00 frame }

/-- Both captures valid, with these headers, under CTRL `c`. -/
def captured (c : Ctrl) (req rsp : Header) : State :=
  withRegs { Regs.reset with
    ctrl := c, reqcap := req, rsphdr := rsp, status := { Status.reset with done := true, reqv := true, rspv := true } }

/-- The state a result goes on with. -/
def after (r : Result) : State := (stateOf r).getD State.reset

/-- A result that goes on goes on with the state `after` names. -/
theorem eq_next_after {r : Result} (h : (stateOf r).isSome = true) : r = .next (after r) := by
  cases r with
  | next s => rfl
  | fault f => cases h
  | refused f => cases h

/-- DE1 of spec 95. -/
def frameRtu : List Byte := [0x01, 0x03, 0x02, 0x12, 0x34, 0xB5, 0x33]

/-- DE3 of spec 95, the exception reply 'illegal data address'. -/
def frameRtuExc : List Byte := [0x01, 0x83, 0x02, 0xC0, 0xF1]

/-- DE14 of spec 95, `:0107F8` CR LF. -/
def frameAscii : List Byte := [0x3A, 0x30, 0x31, 0x30, 0x37, 0x46, 0x38, 0x0D, 0x0A]

/-- DE25 of spec 95. -/
def frameTcp : List Byte := [0x00, 0x01, 0x00, 0x00, 0x00, 0x02, 0x11, 0x03]

/-! ### Decoding: words written out bit by bit from 30 R80 and R81 -/

theorem test_decode_control :
    decode 0b00000000000000000000000000000000 = .ok .nop ∧ decode 0b11111111111111110000000000000000 = .ok .nop ∧
    decode 0b00000000000000000000000011111111 = .ok .sreset := by decide

theorem test_decode_crc :
    decode 0b00000000000000000000000000000001 = .ok .crcInit ∧
    decode 0b00000000000000001010010100000010 = .ok (.crcByte 0xA5) ∧
    decode 0b00000000000000000000000000000011 = .ok .crcBuf := by decide

theorem test_decode_lrc :
    decode 0b00000000000000000000000000000100 = .ok .lrcInit ∧
    decode 0b00000000000000000000101000000101 = .ok (.lrcByte 0x0A) ∧
    decode 0b00000000000000000000000000000110 = .ok .lrcBuf := by decide

theorem test_decode_framing :
    decode 0b00000000000000000000000000010000 = .ok .encode ∧ decode 0b00000000000000000000000000010001 = .ok .decode ∧
    decode 0b00000000000000001111111100010010 = .ok .verify := by decide

theorem test_decode_reserved :
    decode 0b00000000000000000000000000000111 = .error (.reservedOpcode 0x07) ∧
    decode 0b00000000000000000000000000010011 = .error (.reservedOpcode 0x13) ∧
    decode 0b00000000000000000000000011111110 = .error (.reservedOpcode 0xFE) := by decide

/-- P1 of spec 95: the words of `CMD CRC.BYTE 0x01` and `CMD LRC.BYTE 0x0A`. -/
theorem test_encode_words : encode (.crcByte 0x01) = 0x00000102 ∧ encode (.lrcByte 0x0A) = 0x00000A05 := by decide

/-! ### Well-formedness: every check refuses an ill-formed term (20 R62) -/

theorem test_wellFormed_width : wellFormedTraffic [.read 16 0x008] = false ∧ wellFormedTraffic [.write 8 0x00C 0x13] = false := by
  decide

theorem test_wellFormed_alignment : wellFormedTraffic [.write 32 0x009 0x00000000] = false := by decide

theorem test_wellFormed_accepts : wellFormedTraffic [.write 32 0x400 0x0A000000, .read 32 0xFFC] = true := by decide

/-- An operand that a command uses fits its field; a byte always does. -/
theorem test_wellFormed_instr : Instr.wellFormed (.crcByte 0xFF) = true ∧ Instr.wellFormed .encode = true := by decide

/-! ### One step of each command -/

/-- BA1 of spec 95. -/
theorem test_nop_keeps_status :
    holdsAfter (exec .nop (withRegs { Regs.reset with status := { Status.reset with result := 0x01, done := true, err := true } }))
      (fun t => t.regs.read .status == 0x00000301) = true := by decide

/-- CC1 of spec 95. -/
theorem test_crcInit :
    holdsAfter (exec .crcInit (withRegs { Regs.reset with crc := 0x1234 }))
      (fun t => t.regs.crc == 0xFFFF && t.regs.read .status == 0) = true := by decide

/-- CC2 of spec 95. -/
theorem test_crcByte : holdsAfter (exec (.crcByte 0x01) State.reset) (fun t => t.regs.crc == 0x807E) = true := by decide

/-- CC4 of spec 95. -/
theorem test_crcBuf :
    holdsAfter (exec .crcBuf (received 0 false [0x01, 0x03, 0x00, 0x00, 0x00, 0x0A]))
      (fun t => t.regs.crc == 0xCDC5 && t.regs.read .status == 0x00000100) = true := by decide +kernel

/-- CC7 of spec 95. -/
theorem test_crcBuf_too_long :
    holdsAfter (exec .crcBuf (withRegs { Regs.reset with crc := 0xABCD, rxlen := 1025 }))
      (fun t => t.regs.crc == 0xABCD && t.regs.read .status == 0x00000304) = true := by decide +kernel

/-- CC9 of spec 95. -/
theorem test_lrcInit :
    holdsAfter (exec .lrcInit (withRegs { Regs.reset with lrcsum := 0x55 })) (fun t => t.regs.read .lrc == 0) = true := by decide

/-- CC11 of spec 95. -/
theorem test_lrcByte_wraps :
    holdsAfter (exec (.lrcByte 0x01) (withRegs { Regs.reset with lrcsum := 0xFF })) (fun t => t.regs.lrcsum == 0x00) = true := by
  decide

/-- CC13 of spec 95. -/
theorem test_lrcBuf :
    holdsAfter (exec .lrcBuf (received 0 false [0x01, 0x83, 0x02]))
      (fun t => t.regs.lrcsum == 0x86 && t.regs.read .lrc == 0x7A) = true := by decide +kernel

/-- EN5 of spec 95: a swapped data field of odd length under RTU. -/
theorem test_encode_rtu_swapped :
    holdsAfter (exec .encode (request 0 true 0x10 0 [0x12, 0x34, 0x56, 0x78, 0x9A]))
      (fun t => readBytes t.mem 0 0x800 9 == [0x01, 0x10, 0x34, 0x12, 0x78, 0x56, 0x9A, 0x82, 0x3E] &&
        t.regs.read .reqcap == 0x00001001 && t.regs.read .status == 0x00000900) = true := by decide +kernel

/-- EN4 of spec 95 with unit id 1: the transaction id 0xFFFF wraps. -/
theorem test_encode_tcp_wraps :
    holdsAfter (exec .encode (request 2 false 0x03 0xFFFF [0x00, 0x6B, 0x00, 0x03]))
      (fun t => readBytes t.mem 0 0x800 12 == [0xFF, 0xFF, 0x00, 0x00, 0x00, 0x06, 0x01, 0x03, 0x00, 0x6B, 0x00, 0x03] &&
        t.regs.tid == 0x0000 && t.regs.adulen == 12) = true := by decide +kernel

/-- DE3 of spec 95. -/
theorem test_decode_exception :
    holdsAfter (exec .decode (received 0 true frameRtuExc))
      (fun t => t.regs.read .status == 0x00001501 && t.regs.read .rsphdr == 0x00008301 && t.regs.read .excreg == 0x0302 &&
        t.regs.rdlen == 1 && Memory.lookup t.mem 0x500 == some 0x02) = true := by decide +kernel

/-- DE13 of spec 95, `:0103021234B4` CR LF. -/
theorem test_decode_ascii :
    holdsAfter (exec .decode (received 1 false
        [0x3A, 0x30, 0x31, 0x30, 0x33, 0x30, 0x32, 0x31, 0x32, 0x33, 0x34, 0x42, 0x34, 0x0D, 0x0A]))
      (fun t => t.regs.read .status == 0x00001100 && readBytes t.mem 0 0x500 3 == [0x02, 0x12, 0x34]) = true := by
  decide +kernel

/-- VF2 of spec 95: the exception reply to the request. -/
theorem test_verify_exception_reply :
    holdsAfter (exec .verify (captured Ctrl.reset { tid := 0, fc := 0x03, unit := 0x01 } { tid := 0, fc := 0x83, unit := 0x01 }))
      (fun t => t.regs.read .status == 0x00001900) = true := by decide +kernel

/-- VF12 of spec 95: unit id and transaction id differ. -/
theorem test_verify_unit_first :
    holdsAfter (exec .verify
        (captured (ctrlOf 2 false false) { tid := 1, fc := 0x03, unit := 0x11 } { tid := 2, fc := 0x03, unit := 0x12 }))
      (fun t => t.regs.read .status == 0x00001B21) = true := by decide +kernel

/-- BA6 of spec 95. -/
theorem test_sreset :
    holdsAfter (exec .sreset (withRegs { Regs.reset with tid := 0x1234, crc := 0, ctrl := ctrlOf 2 false false }))
      (fun t => t.regs.tid == 0 && t.regs.crc == 0xFFFF && t.regs.read .ctrl == 0x00000010) = true := by decide

/-! ### One step of the port -/

/-- BA3 of spec 95. -/
theorem test_step_reserved :
    holdsAfter (step (atPort [hostWrite 0x00C 0x00000013])) (fun t => t.regs.read .status == 0x00000305) = true := by decide

/-- BA13 of spec 95. -/
theorem test_step_write_ctrl :
    holdsAfter (step (atPort [hostWrite 0x004 0xFFFFFFFF])) (fun t => t.regs.read .ctrl == 0x0000007F) = true := by decide

/-- BA7 of spec 95. -/
theorem test_step_clrst :
    holdsAfter (step { captured Ctrl.reset Header.reset Header.reset with
        regs := { Regs.reset with status :=
          { result := 0x22, done := true, err := true, exc := false, reqv := true, rspv := true } }, port := [hostClrst] })
      (fun t => t.regs.read .status == 0x00001822) = true := by decide

/-- P2 of spec 95, step 4: `LDBUF` writes the little-endian word. -/
theorem test_step_ldbuf :
    holdsAfter (step (atPort (hostLdbuf 0x400 [0x00, 0x00, 0x00, 0x0A])))
      (fun t => t.mem == [(0x400, 0x00), (0x401, 0x00), (0x402, 0x00), (0x403, 0x0A)]) = true := by decide +kernel

/-- The next step after `withFetchWord` runs the word: CC2 of spec 95. -/
theorem test_withFetchWord :
    holdsAfter (step (State.reset.withFetchWord 16 0x0102)) (fun t => t.regs.crc == 0x807E) = true := by decide

/-! ### Witnesses: encoding and the port -/

theorem witness_DecodeOfEncodeIsIdentity : Instr.wellFormed (.lrcByte 0xFF) = true := by decide

/-- Every clause, at the first and the last opcode of each range and with the other bits set. -/
theorem witness_OpcodeByteSelectsTheCommand :
    (0xFFFFFF00 : Word).toNat % 256 = 0x00 ∧ (0xFFFFFF01 : Word).toNat % 256 = 0x01 ∧ (0xFFFFFF02 : Word).toNat % 256 = 0x02 ∧
    (0xFFFFFF03 : Word).toNat % 256 = 0x03 ∧ (0xFFFFFF04 : Word).toNat % 256 = 0x04 ∧ (0xFFFFFF05 : Word).toNat % 256 = 0x05 ∧
    (0xFFFFFF06 : Word).toNat % 256 = 0x06 ∧ (0xFFFFFF10 : Word).toNat % 256 = 0x10 ∧ (0xFFFFFF11 : Word).toNat % 256 = 0x11 ∧
    (0xFFFFFF12 : Word).toNat % 256 = 0x12 ∧ (0xFFFFFFFF : Word).toNat % 256 = 0xFF ∧
    ∀ n ∈ [0x07, 0x0F, 0x13, 0xFE], (0x07 ≤ (BitVec.ofNat 32 n).toNat % 256 ∧ (BitVec.ofNat 32 n).toNat % 256 ≤ 0x0F) ∨
      (0x13 ≤ (BitVec.ofNat 32 n).toNat % 256 ∧ (BitVec.ofNat 32 n).toNat % 256 ≤ 0xFE) := by decide

theorem witness_StepRunsTheDecodedCommand :
    serves (atPort [hostWrite 0x00C 0x00000102]) (.write 32 0x00C 0x00000102) [] ∧ decode 0x00000102 = .ok (.crcByte 0x01) :=
  ⟨⟨rfl, rfl⟩, by decide⟩

theorem witness_ReservedOpcodeReportsBadcmd :
    (∀ w : Word, serves (atPort [.write 32 0x00C w]) (.write 32 0x00C w) []) ∧
    ∀ n ∈ [0x07, 0x0F, 0x13, 0xFE], (0x07 ≤ (BitVec.ofNat 32 n).toNat % 256 ∧ (BitVec.ofNat 32 n).toNat % 256 ≤ 0x0F) ∨
      (0x13 ≤ (BitVec.ofNat 32 n).toNat % 256 ∧ (BitVec.ofNat 32 n).toNat % 256 ≤ 0xFE) :=
  ⟨fun _ => ⟨rfl, rfl⟩, by decide⟩

theorem witness_IdleStepHoldsTheState : State.reset.port = [] := rfl

theorem witness_AccessDuringResetIsStuck (e : HostEvent) :
    ({ atPort [e] with rstN := false } : State).rstN = false ∧ ({ atPort [e] with rstN := false } : State).port = [e] := ⟨rfl, rfl⟩

/-- A narrow read, a misaligned write, and one of the two values of the open parameter. -/
theorem witness_OtherShapesGetABusError :
    (serves (atPort [.read 16 0x008]) (.read 16 0x008) [] ∧ ((16 : Nat) ≠ 32 ∨ (0x008 : BitVec 12).toNat % 4 ≠ 0)) ∧
    (serves (atPort [.write 32 0x00D 0]) (.write 32 0x00D 0) [] ∧ ((32 : Nat) ≠ 32 ∨ (0x00D : BitVec 12).toNat % 4 ≠ 0)) ∧
    (Config.hostBusErr = .ignore ∨ Config.hostBusErr = .fault) := by
  refine ⟨⟨⟨rfl, rfl⟩, by decide⟩, ⟨⟨rfl, rfl⟩, by decide⟩, ?_⟩
  cases Config.hostBusErr
  · exact .inr rfl
  · exact .inl rfl

/-- Every clause: any offset can be presented, the first register's and the last one's among them. -/
theorem witness_RegisterReadsReturnTheFields (a : BitVec 12) : serves (atPort [.read 32 a]) (.read 32 a) [] := ⟨rfl, rfl⟩

theorem witness_RegisterWritesStoreTheFields (a : BitVec 12) (v : Word) :
    serves (atPort [.write 32 a v]) (.write 32 a v) [] := ⟨rfl, rfl⟩

theorem witness_StatusWriteClearsDoneAndErr (v : Word) : serves (atPort [.write 32 0x008 v]) (.write 32 0x008 v) [] := ⟨rfl, rfl⟩

/-- The offsets where the ranges of each clause begin and end, as numbers below 4096. -/
theorem witness_ReadOnlyAndReservedIgnoreWrites :
    (∀ n ∈ [0x000, 0x040, 0x044, 0x3FC, 0x500, 0xBFC], (BitVec.ofNat 12 n).toNat = n ∧ n % 4 = 0 ∧
      (n ∈ [0x000, 0x020, 0x028, 0x02C, 0x030, 0x034, 0x040] ∨ (0x044 ≤ n ∧ n ≤ 0x3FC) ∨ (0x500 ≤ n ∧ n ≤ 0xBFC))) ∧
    (∀ n ∈ [0x044, 0x3FC, 0x600, 0x7FC], (BitVec.ofNat 12 n).toNat = n ∧ n % 4 = 0 ∧
      ((0x044 ≤ n ∧ n ≤ 0x3FC) ∨ (0x600 ≤ n ∧ n ≤ 0x7FC))) ∧
    (∀ (a : BitVec 12) (v : Word), serves (atPort [.write 32 a v]) (.write 32 a v) []) ∧
    ∀ a : BitVec 12, serves (atPort [.read 32 a]) (.read 32 a) [] :=
  ⟨by decide, by decide, fun _ _ => ⟨rfl, rfl⟩, fun _ => ⟨rfl, rfl⟩⟩

theorem witness_BufferWordsAreLittleEndian :
    (∀ n ∈ [0x400, 0x5FC, 0x800, 0xFFC], (BitVec.ofNat 12 n).toNat = n ∧ n % 4 = 0 ∧
      ((0x400 ≤ n ∧ n ≤ 0x5FC) ∨ (0x800 ≤ n ∧ n ≤ 0xFFC))) ∧
    (∀ n ∈ [0x400, 0x4FC, 0xC00, 0xFFC], (BitVec.ofNat 12 n).toNat = n ∧ n % 4 = 0 ∧
      ((0x400 ≤ n ∧ n ≤ 0x4FC) ∨ (0xC00 ≤ n ∧ n ≤ 0xFFC))) ∧
    (∀ n ∈ [0x500, 0x5FC, 0x800, 0xBFC], (BitVec.ofNat 12 n).toNat = n ∧ n % 4 = 0 ∧
      ((0x500 ≤ n ∧ n ≤ 0x5FC) ∨ (0x800 ≤ n ∧ n ≤ 0xBFC))) ∧
    (∀ (a : BitVec 12) (v : Word), serves (atPort [.write 32 a v]) (.write 32 a v) []) ∧
    ∀ a : BitVec 12, serves (atPort [.read 32 a]) (.read 32 a) [] :=
  ⟨by decide, by decide, by decide, fun _ _ => ⟨rfl, rfl⟩, fun _ => ⟨rfl, rfl⟩⟩

theorem witness_ReadsHaveNoSideEffects :
    serves (atPort [.read 32 0x000]) (.read 32 0x000) [] ∧
    step (atPort [.read 32 0x000]) = .next (after (step (atPort [.read 32 0x000]))) := ⟨⟨rfl, rfl⟩, rfl⟩

theorem witness_PlainWritesAreIdempotent :
    (0x008 : BitVec 12).toNat % 4 = 0 ∧ (0x008 : BitVec 12) ≠ 0x00C ∧ State.reset.rstN = true ∧
    (atPort [.write 32 0x008 0x300, .write 32 0x008 0x300]).port = [.write 32 0x008 0x300, .write 32 0x008 0x300] :=
  ⟨by decide, by decide, rfl, rfl⟩

/-- All three resets, and a CLRST. -/
theorem witness_IrqIsTheEnabledFlags :
    (∀ e ∈ [HostEvent.powerOn, .resetLow], resets (atPort [e])) ∧ resets (atPort [hostCmd .sreset]) ∧
    (∀ e ∈ [HostEvent.powerOn, .resetLow, hostCmd .sreset, hostClrst], ∃ t, step (atPort [e]) = .next t) ∧
    serves (atPort [hostClrst]) hostClrst [] := by
  refine ⟨?_, .inr (.inr ⟨_, _, ⟨rfl, rfl⟩, by decide⟩), ?_, rfl, rfl⟩
  · intro e he
    simp only [List.mem_cons, List.not_mem_nil, or_false] at he
    rcases he with rfl | rfl
    · exact .inl ⟨_, rfl⟩
    · exact .inr (.inl ⟨_, rfl⟩)
  · intro e he
    simp only [List.mem_cons, List.not_mem_nil, or_false] at he
    rcases he with rfl | rfl | rfl | rfl <;> exact ⟨_, rfl⟩

/-! ### Witnesses: reset and the plain commands -/

theorem witness_ResetSources : (atPort [.powerOn]).port = .powerOn :: [] ∧ (atPort [.resetLow]).port = .resetLow :: [] := ⟨rfl, rfl⟩

theorem witness_SresetResetsTheRegisters :
    exec .sreset State.reset = .next (after (exec .sreset State.reset)) ∧ (0xABCDEFFF : Word).toNat % 256 = 0xFF := ⟨rfl, by decide⟩

theorem witness_AfterResetNothingIsCaptured : State.reset.regs = Regs.reset ∧ (ctrlOf 2 true false).binding = 2 := ⟨rfl, rfl⟩

theorem witness_NopChangesNothing : (0xFFFF0000 : Word).toNat % 256 = 0x00 := by decide

theorem witness_CrcInitSetsTheInitialValue :
    exec .crcInit State.reset = .next (after (exec .crcInit State.reset)) ∧ (0xABCDEF01 : Word).toNat % 256 = 0x01 := ⟨rfl, by decide⟩

theorem witness_CrcByteFoldsOneByte :
    (withRegs { Regs.reset with crc := 0 }).regs.crc = 0x0000 ∧ State.reset.regs.crc = 0xFFFF ∧
    (∀ b : Byte, ∃ t, exec (.crcByte b) State.reset = .next t) ∧
    (∃ t, exec (.crcByte 0x00) (withRegs { Regs.reset with crc := 0 }) = .next t) ∧ (0xABCDEF02 : Word).toNat % 256 = 0x02 :=
  ⟨rfl, rfl, fun _ => ⟨_, rfl⟩, ⟨_, rfl⟩, by decide⟩

/-- RXLEN at both sides of the bound. -/
theorem witness_CrcBufFoldsTheReceivedBytes :
    1024 < (withRegs { Regs.reset with rxlen := 1025 }).regs.rxlen.toNat ∧
    (withRegs { Regs.reset with rxlen := 1024 }).regs.rxlen.toNat ≤ 1024 ∧ (0xABCDEF03 : Word).toNat % 256 = 0x03 := by decide

theorem witness_LrcInitClearsTheSum :
    exec .lrcInit State.reset = .next (after (exec .lrcInit State.reset)) ∧ (0xABCDEF04 : Word).toNat % 256 = 0x04 := ⟨rfl, by decide⟩

theorem witness_LrcByteAddsOneByte :
    (withRegs { Regs.reset with lrcsum := 0xFF }).regs.lrcsum = 0xFF ∧ (withRegs { Regs.reset with lrcsum := 0x04 }).regs.lrcsum = 0x04 ∧
    (∀ (b : Byte) (g : Regs), ∃ t, exec (.lrcByte b) (withRegs g) = .next t) ∧ (0xABCDEF05 : Word).toNat % 256 = 0x05 :=
  ⟨rfl, rfl, fun _ _ => ⟨_, rfl⟩, by decide⟩

theorem witness_LrcBufAddsTheReceivedBytes :
    1024 < (withRegs { Regs.reset with rxlen := 2047 }).regs.rxlen.toNat ∧
    (withRegs { Regs.reset with rxlen := 0 }).regs.rxlen.toNat ≤ 1024 ∧ (0xABCDEF06 : Word).toNat % 256 = 0x06 := by decide

theorem witness_StreamingCrcEqualsBulkCrc :
    (State.reset.rstN = true ∧
      (atPort (hostCmd .crcInit :: hostCrcStr frameRtuExc)).port = hostCmd .crcInit :: hostCrcStr frameRtuExc) ∧
    (frameRtuExc.length ≤ 1024 ∧ (received 0 false frameRtuExc).regs.rxlen.toNat = frameRtuExc.length ∧
      ∀ k, k < frameRtuExc.length → (received 0 false frameRtuExc).byteAt (0xC00 + k) = frameRtuExc[k]?) :=
  ⟨⟨rfl, rfl⟩, by decide, by decide, by decide⟩

theorem witness_LrcLaws :
    (State.reset.rstN = true ∧
      (atPort (hostCmd .lrcInit :: frameRtuExc.map (fun b => hostCmd (.lrcByte b)))).port =
        hostCmd .lrcInit :: frameRtuExc.map (fun b => hostCmd (.lrcByte b))) ∧
    (frameRtuExc.length ≤ 1024 ∧ (received 0 false frameRtuExc).regs.rxlen.toNat = frameRtuExc.length ∧
      ∀ k, k < frameRtuExc.length → (received 0 false frameRtuExc).byteAt (0xC00 + k) = frameRtuExc[k]?) ∧
    (0 < frameRtuExc.length ∧ frameRtuExc[0]? ≠ some 0xFF) ∧ (4 < frameRtuExc.length ∧ frameRtuExc[4]? ≠ some 0xF0) :=
  ⟨⟨rfl, rfl⟩, by decide, by decide, by decide⟩

theorem witness_FramerIgnoresTheAccumulators :
    (∃ t, exec .encode State.reset = .next t) ∧ (∃ t, exec .decode State.reset = .next t) ∧ (∃ t, exec .verify State.reset = .next t) :=
  ⟨⟨_, rfl⟩, ⟨_, rfl⟩, ⟨_, rfl⟩⟩

/-- Both BUF commands on two states that agree on CRC, LRCSUM, RXLEN, RXBUF and ERR, and differ elsewhere. -/
theorem witness_ChecksumCommandsIgnoreTheFramer :
    (∃ t, exec .crcBuf (received 0 false [0x01]) = .next t) ∧ (∃ t, exec .crcBuf (received 3 true [0x01]) = .next t) ∧
    (∃ t, exec .lrcBuf (received 0 false [0x01]) = .next t) ∧ (∃ t, exec .lrcBuf (received 3 true [0x01]) = .next t) ∧
    (received 3 true [0x01]).regs.crc = (received 0 false [0x01]).regs.crc ∧
    (received 3 true [0x01]).regs.lrcsum = (received 0 false [0x01]).regs.lrcsum ∧
    (received 3 true [0x01]).regs.rxlen = (received 0 false [0x01]).regs.rxlen ∧
    (received 3 true [0x01]).draws = (received 0 false [0x01]).draws ∧
    (received 3 true [0x01]).regs.status.err = (received 0 false [0x01]).regs.status.err ∧
    ∀ a, 0xC00 ≤ a → a ≤ 0xFFF → (received 3 true [0x01]).byteAt a = (received 0 false [0x01]).byteAt a :=
  ⟨⟨_, rfl⟩, ⟨_, rfl⟩, ⟨_, rfl⟩, ⟨_, rfl⟩, rfl, rfl, rfl, rfl, rfl, fun _ _ _ => rfl⟩

/-! ### Witnesses: frames -/

theorem witness_SwapExchangesBytesOfWords :
    2 * 0 + 1 < ([0x12, 0x34, 0x56] : List Byte).length ∧ ([0x12, 0x34, 0x56] : List Byte).length % 2 = 1 := by decide

theorem witness_HexCodecIsExact : (0 : Nat) < 16 ∧ (15 : Nat) < 16 ∧ unhexU [0x46, 0x32] = some [0xF2] := by decide

theorem witness_AduLengths : ([] : List Byte).length ≤ 252 ∧ (List.replicate 252 (0x00 : Byte)).length ≤ 252 :=
  ⟨by decide, by rw [List.length_replicate]⟩

/-- One frame of nine characters for each clause. -/
theorem witness_AsciiParsingChecksInOrder :
    6 ≤ ([0x30, 0x31, 0x30, 0x37, 0x46, 0x38] : List Byte).length ∧
    ¬((0x3B : Byte) = 0x3A ∧ (0x0D : Byte) = 0x0D ∧ (0x0A : Byte) = 0x0A) ∧
    unhexU [0x30, 0x31, 0x30, 0x37, 0x66, 0x38] = none ∧
    unhexU [0x30, 0x31, 0x30, 0x37, 0x46, 0x38] = some ([0x01, 0x07] ++ [] ++ [0xF8]) := by decide

theorem witness_TcpParsingChecksTheHeader : ([] : List Byte).length ≤ 252 ∧ (List.replicate 252 (0x00 : Byte)).length ≤ 252 :=
  witness_AduLengths

/-! ### Witnesses: ENCODE, DECODE and VERIFY -/

theorem witness_EncodeErrorsInOrder :
    (request 3 false 0x03 0 []).regs.ctrl.binding = 3 ∧
    (withRegs { Regs.reset with txlen := 253 }).regs.ctrl.binding ≠ 3 ∧ 252 < (withRegs { Regs.reset with txlen := 253 }).regs.txlen.toNat ∧
    (withRegs { Regs.reset with txlen := 252 }).regs.ctrl.binding ≠ 3 ∧ (withRegs { Regs.reset with txlen := 252 }).regs.txlen.toNat ≤ 252 := by
  decide

theorem witness_EncodeRtu :
    (withRegs { Regs.reset with txlen := 252 }).regs.ctrl.binding = 0 ∧ (withRegs { Regs.reset with txlen := 252 }).regs.txlen.toNat ≤ 252 := by
  decide

theorem witness_EncodeAscii :
    (request 1 true 0x10 0 [0x12, 0x34, 0x56]).regs.ctrl.binding = 1 ∧ (request 1 true 0x10 0 [0x12, 0x34, 0x56]).regs.txlen.toNat ≤ 252 := by
  decide

theorem witness_EncodeTcp :
    (request 2 false 0x03 0xFFFF []).regs.ctrl.binding = 2 ∧ (request 2 false 0x03 0xFFFF []).regs.txlen.toNat ≤ 252 := by decide

/-- BINDING 3; RXLEN one below and one above each range; a frame that fails each check of each binding; an exception reply
without its code (DE4 of spec 95). -/
theorem witness_DecodeFailuresInOrder :
    (received 3 false frameRtu).regs.ctrl.binding = 3 ∧
    ((withRegs { Regs.reset with rxlen := 3 }).regs.ctrl.bindingOf = some .rtu ∧ 3 < minAdu .rtu) ∧
    ((withRegs { Regs.reset with rxlen := 257 }).regs.ctrl.bindingOf = some .rtu ∧ maxAdu .rtu < 257) ∧
    ((received 0 false [0x01, 0x03, 0x40, 0x20]).regs.ctrl.bindingOf = some .rtu ∧ minAdu .rtu ≤ 4 ∧ 4 ≤ maxAdu .rtu ∧
      parseAdu .rtu ((received 0 false [0x01, 0x03, 0x40, 0x20]).bufferBytes 0xC00 4) = .error .frmCrc) ∧
    ((received 1 false frameAscii).regs.ctrl.bindingOf = some .ascii ∧ minAdu .ascii ≤ 9 ∧ 9 ≤ maxAdu .ascii ∧
      parseAdu .ascii ((received 1 false (frameAscii.set 0 0x3B)).bufferBytes 0xC00 9) = .error .frmDelim ∧
      parseAdu .ascii ((received 1 false (frameAscii.set 8 0x0B)).bufferBytes 0xC00 9) = .error .frmDelim ∧
      parseAdu .ascii ((received 1 false (frameAscii.set 5 0x66)).bufferBytes 0xC00 9) = .error .frmHex ∧
      parseAdu .ascii ((received 1 false (frameAscii.set 6 0x39)).bufferBytes 0xC00 9) = .error .frmLrc) ∧
    ((received 2 false frameTcp).regs.ctrl.bindingOf = some .tcp ∧ minAdu .tcp ≤ 8 ∧ 8 ≤ maxAdu .tcp ∧
      parseAdu .tcp ((received 2 false (frameTcp.set 3 0x01)).bufferBytes 0xC00 8) = .error .frmProto ∧
      parseAdu .tcp ((received 2 false (frameTcp.set 5 0x03)).bufferBytes 0xC00 8) = .error .frmLength) ∧
    (parseAdu .rtu ((received 0 false [0x01, 0x83, 0x41, 0x81]).bufferBytes 0xC00 4) =
        .ok { unit := 0x01, fc := 0x83, data := [], tid := 0 } ∧
      (0x83 : Byte).getLsbD 7 = true ∧ ([] : List Byte).length ≠ 1) :=
  ⟨by decide, by decide, by decide, ⟨by decide, by decide, by decide, by decide +kernel⟩,
    ⟨by decide, by decide, by decide, by decide +kernel⟩, ⟨by decide, by decide, by decide, by decide +kernel⟩,
    by decide +kernel, by decide, by decide⟩

/-- DE2, DE14 and DE25 of spec 95. -/
theorem witness_DecodeLatchesANormalReply :
    ((received 0 true frameRtu).regs.ctrl.bindingOf = some .rtu ∧ minAdu .rtu ≤ 7 ∧ 7 ≤ maxAdu .rtu ∧
      parseAdu .rtu ((received 0 true frameRtu).bufferBytes 0xC00 7) =
        .ok { unit := 0x01, fc := 0x03, data := [0x02, 0x12, 0x34], tid := 0 } ∧ (0x03 : Byte).getLsbD 7 = false) ∧
    ((received 1 false frameAscii).regs.ctrl.bindingOf = some .ascii ∧ minAdu .ascii ≤ 9 ∧ 9 ≤ maxAdu .ascii ∧
      parseAdu .ascii ((received 1 false frameAscii).bufferBytes 0xC00 9) =
        .ok { unit := 0x01, fc := 0x07, data := [], tid := 0 } ∧ (0x07 : Byte).getLsbD 7 = false) ∧
    ((received 2 false frameTcp).regs.ctrl.bindingOf = some .tcp ∧ minAdu .tcp ≤ 8 ∧ 8 ≤ maxAdu .tcp ∧
      parseAdu .tcp ((received 2 false frameTcp).bufferBytes 0xC00 8) =
        .ok { unit := 0x11, fc := 0x03, data := [], tid := 1 } ∧ (0x03 : Byte).getLsbD 7 = false) := by decide +kernel

/-- DE12 of spec 95. -/
theorem witness_DecodeLatchesAnExceptionReply :
    (received 0 true frameRtuExc).regs.ctrl.bindingOf = some .rtu ∧ minAdu .rtu ≤ 5 ∧ 5 ≤ maxAdu .rtu ∧
      parseAdu .rtu ((received 0 true frameRtuExc).bufferBytes 0xC00 5) =
        .ok { unit := 0x01, fc := 0x83, data := [0x02], tid := 0 } ∧ (0x83 : Byte).getLsbD 7 = true := by decide +kernel

/-- A reply with a data byte, received in two states that differ elsewhere. -/
theorem witness_DecodeDependsOnCtrlAndTheFrameAlone :
    let s := received 0 false frameRtu
    let s' : State := { s with regs := { s.regs with tid := 0x1234, excreg := { fc := 0x03, code := 0x02 } }, draws := 7 }
    s'.regs.ctrl = s.regs.ctrl ∧ s'.regs.rxlen = s.regs.rxlen ∧
    (∀ k, k < s.regs.rxlen.toNat → (s.byteAt (0xC00 + k)).isSome = true ∧ s'.byteAt (0xC00 + k) = s.byteAt (0xC00 + k)) ∧
    exec .decode s = .next (after (exec .decode s)) ∧ exec .decode s' = .next (after (exec .decode s')) ∧
    (after (exec .decode s)).regs.status.rspv = true ∧ 0 < (after (exec .decode s)).regs.rdlen.toNat := by
  intro s s'
  exact ⟨rfl, rfl, by decide, rfl, rfl, by decide +kernel, by decide +kernel⟩

/-- One state for each clause: VF15, VF6, VF3, VF8, VF9, VF1 and VF10 of spec 95. -/
theorem witness_VerifyReportsTheFirstMismatch :
    let h : Header := { tid := 1, fc := 0x03, unit := 0x11 }
    let tcp := ctrlOf 2 false false
    let s1 := captured tcp h { h with unit := 0x12 }
    let s2 := captured tcp h { h with tid := 2 }
    let s3 := captured tcp h { h with fc := 0x04 }
    let s4 := captured Ctrl.reset h { h with fc := 0x83 }
    let s5 := captured { tcp with vfc := false } h { h with fc := 0x04 }
    (0xABCDEF12 : Word).toNat % 256 = 0x12 ∧ (captured (ctrlOf 3 false false) h h).regs.ctrl.binding = 3 ∧
    (State.reset.regs.ctrl.binding ≠ 3 ∧ (State.reset.regs.status.reqv = false ∨ State.reset.regs.status.rspv = false)) ∧
    (s1.regs.ctrl.binding ≠ 3 ∧ s1.regs.status.reqv = true ∧ s1.regs.status.rspv = true ∧ s1.regs.rsphdr.unit ≠ s1.regs.reqcap.unit) ∧
    (s2.regs.rsphdr.unit = s2.regs.reqcap.unit ∧ s2.regs.ctrl.binding = 2 ∧ s2.regs.rsphdr.tid ≠ s2.regs.reqcap.tid) ∧
    (s3.regs.rsphdr.tid = s3.regs.reqcap.tid ∧ s3.regs.rsphdr.fc.toNat % 128 ≠ s3.regs.reqcap.fc.toNat ∧ s3.regs.ctrl.vfc = true) ∧
    (s4.regs.ctrl.binding ≠ 2 ∧ s4.regs.rsphdr.fc.toNat % 128 = s4.regs.reqcap.fc.toNat) ∧
    (s5.regs.rsphdr.tid = s5.regs.reqcap.tid ∧ s5.regs.ctrl.binding = 2 ∧ s5.regs.ctrl.vfc = false) := by decide

/-! ### Witnesses: the whole machine -/

theorem witness_EveryCommandCompletes :
    serves (atPort [hostCmd .decode]) (hostCmd .decode) [] ∧ (hostCmd .decode).wellShaped = true := ⟨⟨rfl, rfl⟩, by decide⟩

theorem witness_ServedTrafficRunsToItsEnd :
    (atPort [hostWrite 0x400 1, hostCmd .encode, hostRead 0x800]).rstN = true ∧
    servedTraffic (atPort [hostWrite 0x400 1, hostCmd .encode, hostRead 0x800]).port := ⟨rfl, by unfold servedTraffic; decide⟩

theorem witness_StickyFlagsAreNeverAnOperand :
    (∃ t, exec .decode State.reset = .next t) ∧ Instr.decode ≠ .sreset ∧ (∃ t, exec .nop State.reset = .next t) ∧ Instr.nop ≠ .sreset :=
  ⟨⟨_, rfl⟩, by decide, ⟨_, rfl⟩, by decide⟩

/-- A DECODE that sets EXC and RSPV, an ENCODE that sets REQV, and an ENCODE that clears RSPV. -/
theorem witness_CaptureFlagsHaveTheirWriters :
    let s1 : State := { received 0 false frameRtuExc with port := [hostCmd .decode] }
    let s2 : State := { request 0 false 0x03 0 [] with port := [hostCmd .encode] }
    let s3 : State := { captured Ctrl.reset Header.reset Header.reset with port := [hostCmd .encode] }
    (step s1 = .next (after (step s1)) ∧ (after (step s1)).regs.status.exc ≠ s1.regs.status.exc ∧
      (after (step s1)).regs.status.rspv ≠ s1.regs.status.rspv) ∧
    (step s2 = .next (after (step s2)) ∧ (after (step s2)).regs.status.reqv ≠ s2.regs.status.reqv) ∧
    (step s3 = .next (after (step s3)) ∧ (after (step s3)).regs.status.rspv ≠ s3.regs.status.rspv) := by
  intro s1 s2 s3
  exact ⟨⟨rfl, by decide +kernel, by decide +kernel⟩, ⟨rfl, by decide +kernel⟩, ⟨rfl, by decide +kernel⟩⟩

theorem witness_RequestSideHasItsWriters :
    let s : State := { request 2 false 0x03 0xFFFF [] with port := [hostCmd .encode] }
    step s = .next (after (step s)) ∧ (after (step s)).regs.tid ≠ s.regs.tid ∧ (after (step s)).regs.adulen ≠ s.regs.adulen ∧
      (after (step s)).regs.reqcap ≠ s.regs.reqcap := by
  intro s
  exact ⟨rfl, by decide +kernel, by decide +kernel, by decide +kernel⟩

/-- A power-on, a host write at the end of RXBUF, a DECODE and an ENCODE, each changing a byte. -/
theorem witness_BuffersHaveTheirWriters :
    let s1 : State := { received 0 false frameRtu with port := [.powerOn] }
    let s2 : State := atPort [hostWrite 0xFFC 0x01020304]
    let s3 : State := { received 0 false frameRtu with port := [hostCmd .decode] }
    let s4 : State := { request 0 false 0x03 0 [] with port := [hostCmd .encode] }
    (step s1 = .next (after (step s1)) ∧ (after (step s1)).byteAt 0xC00 ≠ s1.byteAt 0xC00) ∧
    (step s2 = .next (after (step s2)) ∧ (after (step s2)).byteAt 0xFFF ≠ s2.byteAt 0xFFF) ∧
    (step s3 = .next (after (step s3)) ∧ (after (step s3)).byteAt 0x502 ≠ s3.byteAt 0x502) ∧
    (step s4 = .next (after (step s4)) ∧ (after (step s4)).byteAt 0x803 ≠ s4.byteAt 0x803) := by
  intro s1 s2 s3 s4
  exact ⟨⟨rfl, by decide +kernel⟩, ⟨rfl, by decide +kernel⟩, ⟨rfl, by decide +kernel⟩, ⟨rfl, by decide +kernel⟩⟩

/-- The state that DE3 of spec 95 leaves, with an idle port. -/
theorem witness_EveryStepKeepsTheInvariant :
    let s : State := { State.reset with
      regs := { Regs.reset with
        rsphdr := { tid := 0, fc := 0x83, unit := 0x01 }, rdlen := 1, excreg := { fc := 0x03, code := 0x02 }
        status := { Status.reset with result := 0x01, done := true, exc := true, rspv := true } }
      mem := [(0x500, 0x02)] }
    s.Inv ∧ step s = .next s := by
  intro s
  refine ⟨⟨by decide, fun a h => ?_, ⟨.exception, rfl⟩, .inl rfl, ?_, by decide, by decide, by decide, fun _ => by decide, ?_⟩, rfl⟩
  · have ha : a = 0x500 := by
      by_contra hne
      simp [s, State.byteAt, Memory.lookup, hne] at h
    subst ha; exact .inl ⟨by decide, by decide⟩
  · intro k h; exact absurd h (Nat.not_lt_zero k)
  · intro _ h; cases h

/-- The capture that EN7c of spec 95 leaves, with an idle port. -/
theorem witness_EveryStepKeepsTheCaptureTrue :
    let s : State := { State.reset with
      regs := { Regs.reset with
        reqcap := { tid := 0, fc := 0x07, unit := 0x01 }, adulen := 8, status := { Status.reset with reqv := true } }
      mem := Memory.storeBytes [] 0x800 [0x00, 0x00, 0x00, 0x00, 0x00, 0x02, 0x01, 0x07] }
    s.CaptureInv ∧ step s = .next s := by
  intro s
  exact ⟨fun _ => ⟨.tcp, [], by decide, fun h => absurd rfl h, by decide, by decide⟩, rfl⟩

/-- Three data bytes to frame under binding `b`. -/
def framed (b : BitVec 2) (refout : Bool) : State := request b refout 0x10 0xFFFF [0x12, 0x34, 0x56]

/-- What ENCODE of `framed` leaves, copied to RXBUF with its length in RXLEN, under REFIN `refin`. -/
def looped (b : BitVec 2) (refout refin : Bool) : State :=
  let t := after (exec .encode (framed b refout))
  { t with
    regs := { t.regs with rxlen := t.regs.adulen, ctrl := { t.regs.ctrl with refin := refin } }
    mem := Memory.storeBytes t.mem 0xC00 (readBytes t.mem 0 0x800 t.regs.adulen.toNat) }

theorem framed_completes : ∀ b ∈ ([0, 1, 2] : List (BitVec 2)), ∀ refout : Bool,
    (stateOf (exec .encode (framed b refout))).isSome = true := by decide +kernel

/-- Each binding, REFOUT and REFIN: both data clauses are met, and under TCP the clause on the transaction id. -/
theorem witness_EncodeDecodeVerifyRoundTrip :
    ∀ b ∈ ([0, 1, 2] : List (BitVec 2)), ∀ refout refin : Bool,
      let s := framed b refout
      let t := after (exec .encode s)
      let u := looped b refout refin
      exec .encode s = .next t ∧ s.regs.ctrl.binding = b ∧ s.regs.ctrl.binding ≠ 3 ∧ s.regs.txlen.toNat ≤ 252 ∧
      s.regs.fc.getLsbD 7 = false ∧ u.regs.ctrl.binding = s.regs.ctrl.binding ∧ u.regs.ctrl.refout = s.regs.ctrl.refout ∧
      u.regs.ctrl.refin = refin ∧ u.regs.reqcap = t.regs.reqcap ∧ u.regs.status.reqv = true ∧ u.regs.rxlen = t.regs.adulen ∧
      (∀ k, k < t.regs.adulen.toNat → u.byteAt (0xC00 + k) = t.byteAt (0x800 + k)) ∧ 0 < s.regs.txlen.toNat :=
  fun b hb refout refin => ⟨eq_next_after (framed_completes b hb refout), by revert b; revert refout refin; decide +kernel⟩

/-- DE6 and DE14 of spec 95: an RTU frame and an ASCII frame, with a bit of the colon, of a hex character and of LF flipped. -/
theorem witness_SingleBitFlipsAreDetected :
    (∀ ij ∈ [(0, 0), (3, 7)],
      let frame : List Byte := [0x01, 0x03, 0x40, 0x21]
      let s := received 0 false frame
      let s' := received 0 false (frame.set ij.1 (at8 frame ij.1 ^^^ BitVec.ofNat 8 (2 ^ ij.2)))
      s.regs.ctrl.binding = 0 ∧ (∀ k, k < s.regs.rxlen.toNat → (s.byteAt (0xC00 + k)).isSome = true) ∧
      exec .decode s = .next (after (exec .decode s)) ∧ (after (exec .decode s)).regs.status.result = 0x00 ∧
      ij.1 < s.regs.rxlen.toNat ∧ ij.2 < 8 ∧ s'.regs.ctrl = s.regs.ctrl ∧ s'.regs.rxlen = s.regs.rxlen ∧
      (∀ k, k < s.regs.rxlen.toNat → k ≠ ij.1 → s'.byteAt (0xC00 + k) = s.byteAt (0xC00 + k)) ∧
      s'.byteAt (0xC00 + ij.1) = (s.byteAt (0xC00 + ij.1)).map (fun b => b ^^^ BitVec.ofNat 8 (2 ^ ij.2))) ∧
    (∀ ij ∈ [(0, 0), (1, 0), (6, 3), (8, 0)],
      let s := received 1 false frameAscii
      let s' := received 1 false (frameAscii.set ij.1 (at8 frameAscii ij.1 ^^^ BitVec.ofNat 8 (2 ^ ij.2)))
      s.regs.ctrl.binding = 1 ∧ (∀ k, k < s.regs.rxlen.toNat → (s.byteAt (0xC00 + k)).isSome = true) ∧
      exec .decode s = .next (after (exec .decode s)) ∧ (after (exec .decode s)).regs.status.result = 0x00 ∧
      ij.1 < s.regs.rxlen.toNat ∧ ij.2 < 8 ∧ s'.regs.ctrl = s.regs.ctrl ∧ s'.regs.rxlen = s.regs.rxlen ∧
      (∀ k, k < s.regs.rxlen.toNat → k ≠ ij.1 → s'.byteAt (0xC00 + k) = s.byteAt (0xC00 + k)) ∧
      s'.byteAt (0xC00 + ij.1) = (s.byteAt (0xC00 + ij.1)).map (fun b => b ^^^ BitVec.ofNat 8 (2 ^ ij.2))) := by
  refine ⟨fun ij h => ?_, fun ij h => ?_⟩
  · refine ⟨by decide, by decide +kernel, eq_next_after (by decide +kernel), by decide +kernel, ?_⟩
    simp only [List.mem_cons, List.not_mem_nil, or_false] at h
    rcases h with rfl | rfl <;> decide +kernel
  · refine ⟨by decide, by decide +kernel, eq_next_after (by decide +kernel), by decide +kernel, ?_⟩
    simp only [List.mem_cons, List.not_mem_nil, or_false] at h
    rcases h with rfl | rfl | rfl | rfl <;> decide +kernel

end Sys2Proof.Tests
end

section
/-! The lengths of the ADUs of each binding, and the limits MINADU and MAXADU (spec 00 R11). -/

namespace Sys2Proof.Machine

@[simp] theorem be16_length (v : Half) : (be16 v).length = 2 := rfl

@[simp] theorem le16_length (v : Half) : (le16 v).length = 2 := rfl

@[simp] theorem hexU_length (s : List Byte) : (hexU s).length = 2 * s.length := by
  induction s with
  | nil => rfl
  | cons b s ih => simp only [hexU, List.length_cons, ih]; omega

/-- Unit id and function code before the data, the CRC after it (R90). -/
@[simp] theorem rtuAdu_length (u f : Byte) (d : List Byte) : (rtuAdu u f d).length = d.length + 4 := by
  simp [rtuAdu]

/-- Three delimiters around two characters for each byte, the LRC among them (R91). -/
@[simp] theorem asciiAdu_length (u f : Byte) (d : List Byte) : (asciiAdu u f d).length = 2 * d.length + 9 := by
  simp [asciiAdu]; omega

/-- Six bytes of header, unit id and function code before the data (R92). -/
@[simp] theorem tcpAdu_length (t : Half) (u f : Byte) (d : List Byte) : (tcpAdu t u f d).length = d.length + 8 := by
  simp [tcpAdu]; omega

/-- MINADU is the length of an ADU with no data. -/
theorem minAdu_le_aduOf_length (b : Binding) (t : Half) (u f : Byte) (d : List Byte) :
    minAdu b ≤ (aduOf b t u f d).length := by
  cases b <;> simp [aduOf, minAdu]

/-- MAXADU is the length of an ADU with MAX_DATA bytes of data. -/
theorem aduOf_length_le_maxAdu (b : Binding) (t : Half) (u f : Byte) {d : List Byte} (h : d.length ≤ Config.maxData) :
    (aduOf b t u f d).length ≤ maxAdu b := by
  have hd : d.length ≤ 252 := h
  cases b <;> simp only [aduOf, maxAdu, Config.maxPdu, rtuAdu_length, asciiAdu_length, tcpAdu_length] <;> omega

/-- Settles O37: the limits by evaluation, the lengths from the three formats, the range from the two bounds over every
binding. -/
theorem aduLengths : Obligations.AduLengths :=
  ⟨rfl, rfl, rfl, rfl, rfl, rfl, fun t u f d =>
    ⟨rtuAdu_length u f d, asciiAdu_length u f d, tcpAdu_length t u f d, fun b hd =>
      ⟨minAdu_le_aduOf_length b t u f d, aduOf_length_le_maxAdu b t u f hd⟩⟩⟩

end Sys2Proof.Machine
end

section
/-! Aligned accesses of the registers and of the offsets that store nothing (spec 10 R21, R48, 20 R61, R64), and the statements
about them. -/

namespace Sys2Proof.Machine

/-! ### Where the registers end and what the other offsets name -/

theorem Reg.offset_aligned (r : Reg) : r.offset % 4 = 0 := by cases r <;> rfl

theorem Reg.offset_le (r : Reg) : r.offset ≤ 0x040 := by cases r <;> decide

/-- The offsets after the registers and between the buffers are reserved (R61). -/
theorem regionAt_reserved {off : Nat} (h : (0x044 ≤ off ∧ off ≤ 0x3FF) ∨ (0x600 ≤ off ∧ off ≤ 0x7FF)) :
    regionAt off = .reserved := by
  have hf : Reg.all.find? (fun r => r.offset == off) = none :=
    List.find?_eq_none.mpr fun r _ e => by
      have := r.offset_le
      have := beq_iff_eq.mp e
      omega
  unfold regionAt
  rw [if_neg (by omega), if_neg (by omega), if_neg (by omega), if_neg (by omega), hf]

theorem regionAt_rdata {off : Nat} (h : 0x500 ≤ off ∧ off ≤ 0x5FF) : regionAt off = .rdata := by
  unfold regionAt
  rw [if_neg (by omega), if_pos h]

theorem regionAt_txbuf {off : Nat} (h : 0x800 ≤ off ∧ off ≤ 0xBFF) : regionAt off = .txbuf := by
  unfold regionAt
  rw [if_neg (by omega), if_neg (by omega), if_pos h]

/-! ### The accesses -/

@[simp] theorem State.busRead_offset (s : State) (r : Reg) :
    s.busRead r.offset = { s with resp := .readData (s.regs.read r) } := by
  simp [State.busRead]

@[simp] theorem State.busWrite_offset (s : State) (r : Reg) (v : Word) :
    s.busWrite r.offset v = { s with regs := s.regs.write r v, resp := .written } := by
  simp [State.busWrite]

theorem State.busRead_reserved (s : State) {off : Nat} (h : regionAt off = .reserved) :
    s.busRead off = { s with resp := .readData 0 } := by
  simp [State.busRead, h]

/-- A write of RDATA, of TXBUF or of a reserved offset is answered and does nothing (R45, R46, R48). -/
theorem State.busWrite_unstored (s : State) {off : Nat} (v : Word) (h : 0x044 ≤ off ∧ off ≤ 0x3FF ∨ 0x500 ≤ off ∧ off ≤ 0xBFF) :
    s.busWrite off v = { s with resp := .written } := by
  have hr : regionAt off = .reserved ∨ regionAt off = .rdata ∨ regionAt off = .txbuf := by
    by_cases hd : 0x500 ≤ off ∧ off ≤ 0x5FF
    · exact .inr (.inl (regionAt_rdata hd))
    · by_cases ht : 0x800 ≤ off ∧ off ≤ 0xBFF
      · exact .inr (.inr (regionAt_txbuf ht))
      · exact .inl (regionAt_reserved (by omega))
  rcases hr with hr | hr | hr <;> simp [State.busWrite, hr]

variable {s : State} {a : BitVec 12} {v : Word} {rest : List HostEvent}

/-- A served read of a register answers the register's word and changes nothing else (R64, R65). -/
theorem step_of_serves_read_reg {w : Word} (r : Reg) (h : serves s (.read 32 a) rest) (ha : a.toNat = r.offset)
    (hw : s.regs.read r = w) : step s = .next { s with port := rest, resp := .readData w } := by
  rw [step_of_serves_read h (ha ▸ r.offset_aligned), ha, State.busRead_offset, hw]

/-- A served write of a register other than CMD changes that register and nothing else (R64). -/
theorem step_of_serves_write_reg {g : Regs} (r : Reg) (hr : r ≠ .cmd) (h : serves s (.write 32 a v) rest)
    (ha : a.toNat = r.offset) (hg : s.regs.write r v = g) :
    step s = .next { s with port := rest, resp := .written, regs := g } := by
  have hc : a ≠ 0x00C := by
    rintro rfl
    revert ha hr
    cases r <;> decide
  rw [step_of_serves_write h (ha ▸ r.offset_aligned) hc, ha, State.busWrite_offset, hg]

/-- A served write of an offset that stores nothing is answered and does nothing else (R45, R46, R48). -/
theorem step_of_serves_write_unstored (h : serves s (.write 32 a v) rest) (ha : a.toNat % 4 = 0)
    (hu : 0x044 ≤ a.toNat ∧ a.toNat ≤ 0x3FF ∨ 0x500 ≤ a.toNat ∧ a.toNat ≤ 0xBFF) :
    step s = .next { s with port := rest, resp := .written } := by
  have hc : a ≠ 0x00C := by
    rintro rfl
    revert hu
    decide
  rw [step_of_serves_write h ha hc, State.busWrite_unstored _ v hu]

/-! ### The words of the registers that have several fields -/

theorem Ctrl.toWord_eq (c : Ctrl) : c.toWord = BitVec.ofNat 32 (c.binding.toNat + 4 * c.refout.toNat + 8 * c.refin.toNat
    + 16 * c.vfc.toNat + 32 * c.ieDone.toNat + 64 * c.ieErr.toNat) := by
  simp only [Ctrl.toWord, Nat.mul_comm]

theorem Status.toWord_eq (st : Status) : st.toWord = BitVec.ofNat 32 (st.result.toNat + 0x100 * st.done.toNat
    + 0x200 * st.err.toNat + 0x400 * st.exc.toNat + 0x800 * st.reqv.toNat + 0x1000 * st.rspv.toNat) := by
  simp only [Status.toWord, Nat.mul_comm, Nat.reducePow]

theorem Header.toWord_eq (h : Header) :
    h.toWord = BitVec.ofNat 32 (h.unit.toNat + 0x100 * h.fc.toNat + 0x10000 * h.tid.toNat) := by
  simp only [Header.toWord, Nat.mul_comm, Nat.reducePow]

theorem ExcReg.toWord_eq (e : ExcReg) : e.toWord = BitVec.ofNat 32 (e.code.toNat + 0x100 * e.fc.toNat) := by
  simp only [ExcReg.toWord, Nat.mul_comm, Nat.reducePow]

theorem setWidth_lrcOfSum (sum : Byte) : (lrcOfSum sum).setWidth 32 = BitVec.ofNat 32 ((256 - sum.toNat) % 256) := by
  apply BitVec.eq_of_toNat_eq
  simp [lrcOfSum]

/-- CTRL stores the written bits at their positions (R23). -/
theorem Ctrl.ofWord_eq (v : Word) : Ctrl.ofWord v = {
    binding := BitVec.ofNat 2 v.toNat, refout := v.toNat.testBit 2, refin := v.toNat.testBit 3
    vfc := v.toNat.testBit 4, ieDone := v.toNat.testBit 5, ieErr := v.toNat.testBit 6 } := by
  simp only [Ctrl.ofWord, BitVec.ofNat_toNat, BitVec.getLsbD]

/-- A 1 clears the flag, a 0 keeps it (R26). -/
theorem Status.w1c_eq (st : Status) (v : Word) : st.w1c v = { st with
    done := if v.toNat.testBit 8 then false else st.done
    err := if v.toNat.testBit 9 then false else st.err } := by
  unfold Status.w1c BitVec.getLsbD
  congr 1
  · cases v.toNat.testBit 8 <;> simp
  · cases v.toNat.testBit 9 <;> simp

/-- The RO registers: a write of one leaves every register as it is (R64). -/
theorem Regs.write_readOnly {off : Nat} (h : off ∈ [0x000, 0x020, 0x028, 0x02C, 0x030, 0x034, 0x040]) :
    ∃ r : Reg, r ≠ .cmd ∧ off = r.offset ∧ ∀ (g : Regs) (v : Word), g.write r v = g := by
  simp only [List.mem_cons, List.not_mem_nil, or_false] at h
  rcases h with h | h | h | h | h | h | h
  · exact ⟨.id, by decide, h, fun _ _ => rfl⟩
  · exact ⟨.adulen, by decide, h, fun _ _ => rfl⟩
  · exact ⟨.reqcap, by decide, h, fun _ _ => rfl⟩
  · exact ⟨.rsphdr, by decide, h, fun _ _ => rfl⟩
  · exact ⟨.rdlen, by decide, h, fun _ _ => rfl⟩
  · exact ⟨.excreg, by decide, h, fun _ _ => rfl⟩
  · exact ⟨.lrc, by decide, h, fun _ _ => rfl⟩

/-- Settles O4: the step issues the command of the word, and the decoder names it. -/
theorem stepRunsTheDecodedCommand : Obligations.StepRunsTheDecodedCommand := by
  intro s w rest i h hd
  rw [step_of_serves_cmd h]
  simp only [issueCommand, hd]

/-- Settles O9: each register's word, read at its offset. -/
theorem registerReadsReturnTheFields : Obligations.RegisterReadsReturnTheFields := by
  intro s a rest h reads g
  have read (r : Reg) (n : Nat) (hn : g.read r = BitVec.ofNat 32 n) (ha : a.toNat = r.offset) : reads n :=
    step_of_serves_read_reg r h ha hn
  exact ⟨
    fun e => read .id _ rfl (e ▸ rfl),
    fun e => read .ctrl _ g.ctrl.toWord_eq (e ▸ rfl),
    fun e => read .status _ g.status.toWord_eq (e ▸ rfl),
    fun e => read .cmd _ rfl (e ▸ rfl),
    fun e => read .unit _ (BitVec.ofNat_toNat _ _).symm (e ▸ rfl),
    fun e => read .fc _ (BitVec.ofNat_toNat _ _).symm (e ▸ rfl),
    fun e => read .txlen _ (BitVec.ofNat_toNat _ _).symm (e ▸ rfl),
    fun e => read .tid _ (BitVec.ofNat_toNat _ _).symm (e ▸ rfl),
    fun e => read .adulen _ (BitVec.ofNat_toNat _ _).symm (e ▸ rfl),
    fun e => read .rxlen _ (BitVec.ofNat_toNat _ _).symm (e ▸ rfl),
    fun e => read .reqcap _ g.reqcap.toWord_eq (e ▸ rfl),
    fun e => read .rsphdr _ g.rsphdr.toWord_eq (e ▸ rfl),
    fun e => read .rdlen _ (BitVec.ofNat_toNat _ _).symm (e ▸ rfl),
    fun e => read .excreg _ g.excreg.toWord_eq (e ▸ rfl),
    fun e => read .crc _ (BitVec.ofNat_toNat _ _).symm (e ▸ rfl),
    fun e => read .lrcsum _ (BitVec.ofNat_toNat _ _).symm (e ▸ rfl),
    fun e => read .lrc _ (setWidth_lrcOfSum _) (e ▸ rfl)⟩

/-- Settles O10: each RW register's fields, written at its offset. -/
theorem registerWritesStoreTheFields : Obligations.RegisterWritesStoreTheFields := by
  intro s a v rest h writes n
  have write (r : Reg) (hr : r ≠ .cmd) (g : Regs) (hg : s.regs.write r v = g) (ha : a.toNat = r.offset) : writes g :=
    step_of_serves_write_reg r hr h ha hg
  have bits (w : Nat) : v.setWidth w = BitVec.ofNat w n := (BitVec.ofNat_toNat _ _).symm
  exact ⟨
    fun e => write .ctrl (by decide) _ (by rw [Regs.write, Ctrl.ofWord_eq]) (e ▸ rfl),
    fun e => write .unit (by decide) _ (by rw [Regs.write, bits]) (e ▸ rfl),
    fun e => write .fc (by decide) _ (by rw [Regs.write, bits]) (e ▸ rfl),
    fun e => write .txlen (by decide) _ (by rw [Regs.write, bits]) (e ▸ rfl),
    fun e => write .tid (by decide) _ (by rw [Regs.write, bits]) (e ▸ rfl),
    fun e => write .rxlen (by decide) _ (by rw [Regs.write, bits]) (e ▸ rfl),
    fun e => write .crc (by decide) _ (by rw [Regs.write, bits]) (e ▸ rfl),
    fun e => write .lrcsum (by decide) _ (by rw [Regs.write, bits]) (e ▸ rfl)⟩

/-- Settles O11: a write of the register STATUS, whose rule is W1C. -/
theorem statusWriteClearsDoneAndErr : Obligations.StatusWriteClearsDoneAndErr := by
  intro s v rest h
  exact step_of_serves_write_reg .status (by decide) h rfl (by rw [Regs.write, Status.w1c_eq])

/-- Settles O12: a RO register, an offset that stores nothing, and the read of a reserved offset. -/
theorem readOnlyAndReservedIgnoreWrites : Obligations.ReadOnlyAndReservedIgnoreWrites := by
  intro s a rest ha
  refine ⟨fun v h hoff => ?_, fun h hoff => ?_⟩
  · rcases hoff with hoff | hoff
    · obtain ⟨r, hr, hro, hw⟩ := Regs.write_readOnly hoff
      exact step_of_serves_write_reg r hr h hro (hw s.regs v)
    · exact step_of_serves_write_unstored h ha (by omega)
  · rw [step_of_serves_read h ha, State.busRead_reserved _ (regionAt_reserved (by omega))]

end Sys2Proof.Machine
end

section
/-! The data field of a parsed reply fits RDATA (spec 10 R45, 41 R151 to R153). -/

namespace Sys2Proof.Machine

@[simp] theorem slice_length (s : List Byte) (i j : Nat) : (slice s i j).length = min (j - i) (s.length - i) := by
  simp [slice]

@[simp] theorem swap16_length (s : List Byte) : (swap16 s).length = s.length := by
  induction s using swap16.induct with
  | case1 a b s ih => simp [swap16, ih]
  | case2 a => rfl
  | case3 => rfl

@[simp] theorem swapIf_length (flag : Bool) (s : List Byte) : (swapIf flag s).length = s.length := by
  cases flag <;> simp [swapIf, swapData, Config.swapMode]

/-- Two hex characters stand for each byte (R95). -/
theorem unhexU_length {s bs : List Byte} (h : unhexU s = some bs) : s.length = 2 * bs.length := by
  induction s using unhexU.induct generalizing bs with
  | case1 => cases h; rfl
  | case2 c => cases h
  | case3 c d s x y t ht hd hc ih =>
    simp only [unhexU, hc, hd, ht, Option.some.injEq] at h
    subst h
    simp [ih ht]; omega
  | case4 c d s hno ih =>
    unfold unhexU at h
    split at h
    · next x y t hc hd ht => exact absurd ht (hno x y t hc hd)
    · cases h

theorem parseRtu_data_length {r : List Byte} {fr : Frame} (h : parseRtu r = .ok fr) : fr.data.length ≤ r.length - 4 := by
  unfold parseRtu at h
  split at h <;> cases h
  simp; omega

theorem parseAscii_data_length {r : List Byte} {fr : Frame} (h : parseAscii r = .ok fr) :
    2 * fr.data.length ≤ r.length - 9 := by
  unfold parseAscii at h
  split at h
  · cases h
  · split at h
    · cases h
    · split at h
      · cases h
      · next bs hbs =>
        have hl := unhexU_length hbs
        split at h <;> cases h
        simp at hl ⊢; omega

theorem parseTcp_data_length {r : List Byte} {fr : Frame} (h : parseTcp r = .ok fr) : fr.data.length ≤ r.length - 8 := by
  unfold parseTcp at h
  split at h
  · cases h
  · split at h <;> cases h
    simp

/-- A frame of at most MAXADU bytes carries at most MAX_DATA bytes of data (R11). -/
theorem parseAdu_data_length_le {b : Binding} {r : List Byte} {fr : Frame} (h : parseAdu b r = .ok fr)
    (hr : r.length ≤ maxAdu b) : fr.data.length ≤ 252 := by
  cases b with
  | rtu => have := parseRtu_data_length h; simp only [maxAdu, Config.maxPdu] at hr; omega
  | ascii => have := parseAscii_data_length h; simp only [maxAdu, Config.maxPdu] at hr; omega
  | tcp => have := parseTcp_data_length h; simp only [maxAdu, Config.maxPdu] at hr; omega

/-- The longest ADU is the longest ASCII one (R11). -/
theorem maxAdu_le (b : Binding) : maxAdu b ≤ 513 := by cases b <;> decide

theorem aduOf_length_le (b : Binding) (t : Half) (u f : Byte) {d : List Byte} (h : d.length ≤ 252) :
    (aduOf b t u f d).length ≤ 513 :=
  (aduOf_length_le_maxAdu b t u f h).trans (maxAdu_le b)

end Sys2Proof.Machine
end

section
/-! Who writes the captures, the flags of captures and the buffers: one case analysis of the step, and the statements that read
it off (spec 10 R29, R34 to R36, R44 to R47). -/

namespace Sys2Proof.Machine

/-! ### Frames -/

theorem byteAt_eq_of_mem_eq {s t : State} (h : t.mem = s.mem) (a : Nat) : t.byteAt a = s.byteAt a :=
  congrArg (Memory.lookup · a) h

theorem storesOnly.byteAt_of_outside {s t : State} {base : Nat} {bs : List Byte} (h : storesOnly s t base bs) {a : Nat}
    (ha : ¬(base ≤ a ∧ a < base + bs.length)) : t.byteAt a = s.byteAt a := by
  rw [h a, if_neg ha]

/-- A byte that a store changes is one of the stored bytes. -/
theorem storesOnly.inside_of_ne {s t : State} {base : Nat} {bs : List Byte} (h : storesOnly s t base bs) {a : Nat}
    (ha : t.byteAt a ≠ s.byteAt a) : base ≤ a ∧ a < base + bs.length :=
  Decidable.byContradiction fun hn => ha (h.byteAt_of_outside hn)

/-- From `s` to `t` the captured request is the same: its flag, its length and its header. -/
structure KeepsRequest (s t : State) : Prop where
  reqv : t.regs.status.reqv = s.regs.status.reqv
  adulen : t.regs.adulen = s.regs.adulen
  reqcap : t.regs.reqcap = s.regs.reqcap

theorem KeepsRequest.of_regs_eq {s t : State} (h : t.regs = s.regs) : KeepsRequest s t := by
  constructor <;> rw [h]

/-! ### ENCODE and DECODE -/

section
variable (s : State) (b : Binding) (c : Code)

@[simp] theorem State.encodeFail_exc : (s.encodeFail c).regs.status.exc = s.regs.status.exc := rfl
@[simp] theorem State.encodeFail_reqv : (s.encodeFail c).regs.status.reqv = false := rfl
@[simp] theorem State.encodeFail_tid : (s.encodeFail c).regs.tid = s.regs.tid := rfl
@[simp] theorem State.encodeFail_adulen : (s.encodeFail c).regs.adulen = s.regs.adulen := rfl
@[simp] theorem State.encodeFail_reqcap : (s.encodeFail c).regs.reqcap = s.regs.reqcap := rfl

@[simp] theorem encodeDone_exc : (encodeDone s b).regs.status.exc = s.regs.status.exc := by rw [encodeDone_eq]
@[simp] theorem encodeDone_tid : (encodeDone s b).regs.tid = nextTid b s.regs.tid := by rw [encodeDone_eq]
@[simp] theorem encodeDone_reqcap : (encodeDone s b).regs.reqcap =
    { tid := captureTid b s.regs.tid, fc := s.regs.fc, unit := s.regs.unit } := by rw [encodeDone_eq]

end

theorem encodedAdu_length_le {s : State} (b : Binding) (h : s.regs.txlen.toNat ≤ 252) : (encodedAdu s b).length ≤ 513 :=
  aduOf_length_le b _ _ _ (by simpa only [swapIf_length, State.bufferBytes_length] using h)

/-- ADULEN holds the whole length of the ADU (R35). -/
theorem encodeDone_adulen_toNat {s : State} (b : Binding) (h : s.regs.txlen.toNat ≤ 252) :
    (encodeDone s b).regs.adulen.toNat = (encodedAdu s b).length := by
  have := encodedAdu_length_le b h
  rw [encodeDone_eq, BitVec.toNat_ofNat, Nat.mod_eq_of_lt (by omega)]

/-- Only TCP carries a transaction id, and there the captured one is TID (R36). -/
theorem aduOf_captureTid (b : Binding) (t : Half) (u f : Byte) (d : List Byte) :
    aduOf b (captureTid b t) u f d = aduOf b t u f d := by
  cases b <;> rfl

/-- TID moves only under TCP, and there by one (R34, R146). -/
theorem nextTid_ne {b : Binding} {t : Half} (h : nextTid b t ≠ t) : b = .tcp ∧ nextTid b t = t + 1 := by
  cases b with
  | rtu => exact absurd rfl h
  | ascii => exact absurd rfl h
  | tcp => exact ⟨rfl, by apply BitVec.eq_of_toNat_eq; simp [nextTid]⟩

/-- What DECODE leaves of the request, and what it stores: nothing where it fails, else the data field, of RDLEN bytes. -/
theorem exec_decode_frame {s t : State} (h : exec .decode s = .next t) :
    KeepsRequest s t ∧ t.regs.tid = s.regs.tid ∧
      ∃ d, d.length ≤ 252 ∧ d.length ≤ t.regs.rdlen.toNat ∧ t.mem = Memory.storeBytes s.mem rdataBase d := by
  rcases execDecode_shape h with ⟨c, n, rfl⟩ | ⟨b, fr, _, _, hmax, hp, ⟨code, _, _, rfl⟩ | ⟨_, rfl⟩⟩
  · exact ⟨⟨rfl, rfl, rfl⟩, rfl, [], Nat.zero_le _, Nat.zero_le _, rfl⟩
  · exact ⟨⟨rfl, rfl, rfl⟩, rfl, [code], by simp, Nat.le_refl 1, rfl⟩
  · have hd : fr.data.length ≤ 252 := parseAdu_data_length_le hp (by simpa using hmax)
    refine ⟨⟨rfl, rfl, rfl⟩, rfl, _, (swapIf_length _ _).trans_le hd, ?_, rfl⟩
    have hl : (swapIf s.regs.ctrl.refin fr.data).length < 2 ^ 9 := by rw [swapIf_length]; omega
    exact (Nat.mod_eq_of_lt hl).ge

/-! ### The step -/

/-- Everything a step that goes on can do to the captured request, the flags of captures, TID and the buffers. -/
inductive WriterCases (s t : State) : Prop where
  | other (hx : t.regs.status.exc = s.regs.status.exc) (hv : t.regs.status.rspv = s.regs.status.rspv)
      (hq : KeepsRequest s t) (ht : t.regs.tid = s.regs.tid ∨ hostWrites s 0x01C) (hm : t.mem = s.mem)
  | hostStore (off : Nat) (v : Word) (hs : hostWrites s off) (ha : off % 4 = 0)
      (hr : (0x400 ≤ off ∧ off ≤ 0x4FF) ∨ (0xC00 ≤ off ∧ off ≤ 0xFFF)) (ht : t.regs = s.regs)
      (hm : storesOnly s t off (bytesOfWord v))
  | reset (hs : resets s) (ht : t.regs = Regs.reset) (hm : t.mem = s.mem ∨ ∃ rest, s.port = .powerOn :: rest)
  | decode (d : List Byte) (hs : issues s .decode) (hq : KeepsRequest s t) (ht : t.regs.tid = s.regs.tid)
      (hd : d.length ≤ 252) (hl : d.length ≤ t.regs.rdlen.toNat) (hm : storesOnly s t 0x500 d)
  | encodeFail (c : Code) (hs : issues s .encode) (ht : t.regs = (s.encodeFail c).regs) (hm : t.mem = s.mem)
  | encode (b : Binding) (hs : issues s .encode) (hb : s.regs.ctrl.bindingOf = some b) (hl : s.regs.txlen.toNat ≤ 252)
      (ht : t.regs = (encodeDone s b).regs) (hm : storesOnly s t 0x800 (encodedAdu s b))

/-- A command falls under these cases where the step that runs it starts from `s`. -/
theorem exec_writers {s t : State} {i : Instr} {rest : List HostEvent} (hs : issues s i)
    (h : exec i { s with port := rest, resp := .written } = .next t) : WriterCases s t := by
  by_cases he : i = .encode
  · subst he
    rcases execEncode_cases { s with port := rest, resp := .written } with ⟨_, e⟩ | ⟨b, _, _, e⟩ | ⟨b, hb, hl, e⟩ <;>
      rw [e] at h <;> cases h
    · exact .encodeFail .errConfig hs rfl rfl
    · exact .encodeFail .errTxlen hs rfl rfl
    · exact .encode b hs hb hl rfl (storesOnly_storeBytes _ _ _ _ rfl)
  by_cases hd : i = .decode
  · subst hd
    obtain ⟨⟨hq, ha, hc⟩, ht, d, h1, h2, hm⟩ := exec_decode_frame h
    exact .decode d hs ⟨hq, ha, hc⟩ ht h1 h2 (storesOnly_storeBytes _ _ _ _ hm)
  by_cases hr : i = .sreset
  · subst hr
    cases h
    exact .reset (.inr (.inr hs)) rfl (.inl rfl)
  obtain ⟨_, _, _, _, _, _, rfl, _⟩ := exec_small_frame h he hd hr
  exact .other rfl rfl ⟨rfl, rfl, rfl⟩ (.inl rfl) rfl

/-- A plain write falls under these cases: TID is the one captured register a host writes, TXDATA and RXBUF the buffers. -/
theorem busWrite_writers {s : State} {a : BitVec 12} {v : Word} {rest : List HostEvent} (hs : serves s (.write 32 a v) rest)
    (ha : a.toNat % 4 = 0) : WriterCases s (State.busWrite { s with port := rest } a.toNat v) := by
  rcases State.busWrite_cases { s with port := rest } a.toNat v with ⟨r, hr, e⟩ | ⟨hr, e⟩ | e <;> rw [e]
  · have htid : (s.regs.write r v).tid = s.regs.tid ∨ hostWrites s 0x01C := by
      by_cases h : r = .tid
      · exact .inr ⟨a, v, rest, hs, by rw [hr, h]; rfl⟩
      · exact .inl (Regs.write_tid_of_ne v s.regs r h)
    exact .other (Regs.write_exc ..) (Regs.write_rspv ..) ⟨Regs.write_reqv .., Regs.write_adulen .., Regs.write_reqcap ..⟩
      htid rfl
  · exact .hostStore a.toNat v ⟨a, v, rest, hs, rfl⟩ ha hr rfl (storesOnly_storeBytes _ _ _ _ rfl)
  · exact .other rfl rfl ⟨rfl, rfl, rfl⟩ (.inl rfl) rfl

theorem step_writers {s t : State} (h : step s = .next t) : WriterCases s t := by
  cases step_cases h with
  | idle hp ht => subst ht; exact .other rfl rfl ⟨rfl, rfl, rfl⟩ (.inl rfl) rfl
  | read a rest hs ha ht =>
    have hr : t.regs = s.regs := by rw [ht, State.busRead_regs]
    exact .other (by rw [hr]) (by rw [hr]) (.of_regs_eq hr) (.inl (by rw [hr])) (by rw [ht, State.busRead_mem])
  | write a v rest hs ha hc ht => subst ht; exact busWrite_writers hs ha
  | command v i rest hs hd ht => exact exec_writers ⟨v, rest, hs, hd⟩ ht
  | reserved v x rest hs hd ht => subst ht; exact .other rfl rfl ⟨rfl, rfl, rfl⟩ (.inl rfl) rfl
  | error e rest hs he hw ht => subst ht; exact .other rfl rfl ⟨rfl, rfl, rfl⟩ (.inl rfl) rfl
  | resetLow rest hp ht => subst ht; exact .reset (.inr (.inl ⟨rest, hp⟩)) rfl (.inl rfl)
  | resetHigh rest hp ht => subst ht; exact .other rfl rfl ⟨rfl, rfl, rfl⟩ (.inl rfl) rfl
  | powerOn rest hp ht => subst ht; exact .reset (.inl ⟨rest, hp⟩) rfl (.inr ⟨rest, hp⟩)

/-! ### The captured request -/

/-- The capture stays true where the captured request and TXBUF stay the same: no ADU reaches past TXBUF. -/
theorem State.CaptureInv.of_keepsRequest {s t : State} (hs : s.CaptureInv) (hq : KeepsRequest s t)
    (hm : ∀ a, 0x800 ≤ a → a ≤ 0xBFF → t.byteAt a = s.byteAt a) : t.CaptureInv := by
  intro hv
  obtain ⟨b, d, hd, htid, hlen, hbytes⟩ := hs (hq.reqv ▸ hv)
  rw [hq.reqcap, hq.adulen]
  refine ⟨b, d, hd, htid, hlen, fun k hk => ?_⟩
  have hmax : s.regs.adulen.toNat ≤ 513 := hlen ▸ aduOf_length_le b _ _ _ hd
  rw [hm _ (by omega) (by omega), hbytes k hk]

/-- A successful ENCODE captures the request whose ADU it stores in TXBUF (R36, R147). -/
theorem encodeDone_captureInv (s : State) (b : Binding) (h : s.regs.txlen.toNat ≤ 252) : (encodeDone s b).CaptureInv := by
  intro _
  have hst : storesOnly s (encodeDone s b) 0x800 (encodedAdu s b) := storesOnly_storeBytes _ _ _ _ (by rw [encodeDone_eq])
  rw [encodeDone_adulen_toNat b h, encodeDone_reqcap]
  refine ⟨b, swapIf s.regs.ctrl.refout (s.bufferBytes 0x400 s.regs.txlen.toNat), by simpa using h, fun hb => ?_, ?_, ?_⟩
  · cases b with
    | rtu => rfl
    | ascii => rfl
    | tcp => exact absurd rfl hb
  · rw [aduOf_captureTid]; rfl
  · intro k hk
    rw [hst.at hk, aduOf_captureTid]; rfl

/-- Settles O58: ENCODE makes the capture true or clears REQV, a reset clears REQV, and every other step keeps the captured
request and TXBUF. -/
theorem everyStepKeepsTheCaptureTrue : Obligations.EveryStepKeepsTheCaptureTrue := by
  intro s t hs h
  cases step_writers h with
  | other hx hv hq ht hm => exact hs.of_keepsRequest hq fun a _ _ => byteAt_eq_of_mem_eq hm a
  | hostStore off v hw ha hr ht hm =>
    refine hs.of_keepsRequest (.of_regs_eq ht) fun a h1 h2 => hm.byteAt_of_outside ?_
    simp only [bytesOfWord, List.length_cons, List.length_nil]; omega
  | reset hw ht hm =>
    intro hv
    rw [ht] at hv
    cases hv
  | decode d hi hq ht hd hl hm => exact hs.of_keepsRequest hq fun a h1 h2 => hm.byteAt_of_outside (by omega)
  | encodeFail c hi ht hm =>
    intro hv
    rw [ht, State.encodeFail_reqv] at hv
    cases hv
  | encode b hi hb hl ht hm =>
    refine (encodeDone_captureInv s b hl).of_keepsRequest (.of_regs_eq ht) fun a _ _ => ?_
    rw [hm a, storesOnly_storeBytes s 0x800 (encodedAdu s b) (encodeDone s b) (by rw [encodeDone_eq]) a]

/-- Settles O53: each flag is kept in every case but those of its writers. -/
theorem captureFlagsHaveTheirWriters : Obligations.CaptureFlagsHaveTheirWriters := by
  intro s t h
  cases step_writers h with
  | other hx hv hq ht hm => exact ⟨fun e => absurd hx e, fun e => absurd hq.reqv e, fun e => absurd hv e⟩
  | hostStore off v hw ha hr ht hm => simp [ht]
  | reset hw ht hm => exact ⟨fun _ => .inr hw, fun _ => .inr hw, fun _ => .inr (.inr hw)⟩
  | decode d hi hq ht hd hl hm => exact ⟨fun _ => .inl hi, fun e => absurd hq.reqv e, fun _ => .inl hi⟩
  | encodeFail c hi ht hm => exact ⟨by simp [ht], fun _ => .inl hi, fun _ => .inr (.inl hi)⟩
  | encode b hi hb hl ht hm => exact ⟨by simp [ht], fun _ => .inl hi, fun _ => .inr (.inl hi)⟩

/-- Settles O54: TID, ADULEN and REQCAP are kept in every case but those of their writers. -/
theorem requestSideHasItsWriters : Obligations.RequestSideHasItsWriters := by
  intro s t h
  cases step_writers h with
  | other hx hv hq ht hm =>
    refine ⟨fun e => ?_, fun e => ?_⟩
    · exact .inr (.inl (ht.resolve_left e))
    · simp [hq.adulen, hq.reqcap] at e
  | hostStore off v hw ha hr ht hm => simp [ht]
  | reset hw ht hm => exact ⟨fun _ => .inl hw, fun _ => .inl hw⟩
  | decode d hi hq ht hd hl hm => simp [ht, hq.adulen, hq.reqcap]
  | encodeFail c hi ht hm => simp [ht]
  | encode b hi hb hl ht hm =>
    have hne : s.regs.ctrl.binding ≠ 3 := fun e => by
      rw [(Ctrl.bindingOf_eq_none _).mpr e] at hb
      cases hb
    refine ⟨fun e => ?_, fun _ => .inr ⟨hi, hne, hl⟩⟩
    rw [ht, encodeDone_tid] at e ⊢
    obtain ⟨rfl, hsucc⟩ := nextTid_ne e
    exact .inr (.inr ⟨hi, (Ctrl.bindingOf_eq_tcp _).mp hb, hl, hsucc⟩)

/-- Settles O55: the changed byte is one of those that the step's writer stored. -/
theorem buffersHaveTheirWriters : Obligations.BuffersHaveTheirWriters := by
  intro s t a h hne
  cases step_writers h with
  | other hx hv hq ht hm => exact absurd (byteAt_eq_of_mem_eq hm a) hne
  | hostStore off v hw ha hr ht hm =>
    have hin := hm.inside_of_ne hne
    simp only [bytesOfWord, List.length_cons, List.length_nil] at hin
    have hoff : a / 4 * 4 = off := by omega
    exact .inr (.inr (.inr ⟨by omega, hoff ▸ hw⟩))
  | reset hw ht hm => exact .inl (hm.resolve_left fun e => hne (byteAt_eq_of_mem_eq e a))
  | decode d hi hq ht hd hl hm =>
    obtain ⟨h1, h2⟩ := hm.inside_of_ne hne
    exact .inr (.inl ⟨h1, by omega, hi⟩)
  | encodeFail c hi ht hm => exact absurd (byteAt_eq_of_mem_eq hm a) hne
  | encode b hi hb hl ht hm =>
    obtain ⟨h1, h2⟩ := hm.inside_of_ne hne
    have hlen : t.regs.adulen.toNat = (encodedAdu s b).length := by rw [ht, encodeDone_adulen_toNat b hl]
    exact .inr (.inr (.inl ⟨h1, by omega, hi⟩))

end Sys2Proof.Machine
end

section
/-! The port as a memory of words (spec 20 R60 to R65): the window of offsets, accesses of another shape, buffer words in their
byte order, reads without a side effect, and plain writes done twice. -/

namespace Sys2Proof.Machine

/-! ### Stores at several offsets, in any memory, canonical or not -/

/-- Of two stores at one offset the second stands. -/
@[simp] theorem Memory.store_store_same (m : Memory) (a : Nat) (b c : Byte) :
    Memory.store (Memory.store m a b) a c = Memory.store m a c := by
  induction m with
  | nil => simp [Memory.store]
  | cons d m ih =>
    obtain ⟨x, v⟩ := d
    by_cases hlt : a < x
    · simp [Memory.store, hlt]
    · by_cases heq : a = x
      · simp [Memory.store, heq]
      · simp [Memory.store, hlt, heq, ih]

/-- Stores at two offsets commute: at each listed offset `x` both go on, one stops, or both do. -/
theorem Memory.store_store_of_lt (m : Memory) {a b : Nat} (v w : Byte) (h : a < b) :
    Memory.store (Memory.store m a v) b w = Memory.store (Memory.store m b w) a v := by
  have hba : ¬b < a := by omega
  have hne : b ≠ a := by omega
  induction m with
  | nil => simp [Memory.store, h, hba, hne]
  | cons d m ih =>
    obtain ⟨x, u⟩ := d
    rcases Nat.lt_trichotomy a x with hax | rfl | hxa
    · rcases Nat.lt_trichotomy b x with hbx | rfl | hxb
      · simp [Memory.store, *]
      · simp [Memory.store, *]
      · have hnb : ¬b < x := by omega
        have hxe : b ≠ x := by omega
        simp [Memory.store, *]
    · simp [Memory.store, *]
    · have hna : ¬a < x := by omega
      have hae : a ≠ x := by omega
      have hnb : ¬b < x := by omega
      have hbe : b ≠ x := by omega
      simp [Memory.store, *]

/-- A store before a run of stores may as well come after it. -/
theorem Memory.storeBytes_store_of_lt (m : Memory) {a base : Nat} (v : Byte) (bs : List Byte) (h : a < base) :
    Memory.storeBytes (Memory.store m a v) base bs = Memory.store (Memory.storeBytes m base bs) a v := by
  induction bs generalizing m base with
  | nil => rfl
  | cons b bs ih => rw [Memory.storeBytes, Memory.store_store_of_lt m v b h, ih _ (by omega), Memory.storeBytes]

/-- A run of bytes stored twice is stored once. -/
@[simp] theorem Memory.storeBytes_storeBytes (m : Memory) (base : Nat) (bs : List Byte) :
    Memory.storeBytes (Memory.storeBytes m base bs) base bs = Memory.storeBytes m base bs := by
  induction bs generalizing m base with
  | nil => rfl
  | cons b bs ih =>
    have hlt : base < base + 1 := Nat.lt_succ_self base
    simp only [Memory.storeBytes, ← Memory.storeBytes_store_of_lt _ _ _ hlt, Memory.store_store_same, ih]

/-! ### Plain writes -/

/-- W1C clears no more the second time (R26). -/
@[simp] theorem Status.w1c_w1c (st : Status) (v : Word) : (st.w1c v).w1c v = st.w1c v := by
  simp [Status.w1c]

/-- A register written twice with one word is written once. -/
@[simp] theorem Regs.write_write (g : Regs) (r : Reg) (v : Word) : (g.write r v).write r v = g.write r v := by
  cases r
  case status => simp [Regs.write]
  all_goals rfl

/-- A plain write does not depend on what else is presented at the port. -/
theorem State.busWrite_withPort (s : State) (p : List HostEvent) (off : Nat) (v : Word) :
    State.busWrite { s with port := p } off v = { s.busWrite off v with port := p } := by
  unfold State.busWrite
  cases regionAt off <;> rfl

@[simp] theorem State.busWrite_busWrite (s : State) (off : Nat) (v : Word) :
    (s.busWrite off v).busWrite off v = s.busWrite off v := by
  unfold State.busWrite
  cases regionAt off
  case reg r => simp
  case txdata => simp
  case rxbuf => simp
  all_goals rfl

/-! ### Buffer words -/

theorem regionAt_txdata {off : Nat} (h : 0x400 ≤ off ∧ off ≤ 0x4FF) : regionAt off = .txdata := by
  unfold regionAt
  rw [if_pos h]

theorem regionAt_rxbuf {off : Nat} (h : 0xC00 ≤ off ∧ off ≤ 0xFFF) : regionAt off = .rxbuf := by
  unfold regionAt
  rw [if_neg (by omega), if_neg (by omega), if_neg (by omega), if_pos h]

/-- A read of a buffer answers its word and uses up four draw numbers (R63, R52). -/
theorem State.busRead_buffer (s : State) {off : Nat} (h : inBuffer off) :
    s.busRead off = { s with resp := .readData (s.bufferWord off), draws := s.draws + 4 } := by
  have hr : regionAt off = .txdata ∨ regionAt off = .rdata ∨ regionAt off = .txbuf ∨ regionAt off = .rxbuf := by
    rcases h with h | h
    · by_cases hd : off ≤ 0x4FF
      · exact .inl (regionAt_txdata ⟨h.1, hd⟩)
      · exact .inr (.inl (regionAt_rdata (by omega)))
    · by_cases ht : off ≤ 0xBFF
      · exact .inr (.inr (.inl (regionAt_txbuf ⟨h.1, ht⟩)))
      · exact .inr (.inr (.inr (regionAt_rxbuf (by omega))))
  rcases hr with hr | hr | hr | hr <;> simp [State.busRead, hr, State.spend]

/-- A write of TXDATA or RXBUF stores the bytes of its word (R63). -/
theorem State.busWrite_stored (s : State) {off : Nat} (v : Word)
    (h : (0x400 ≤ off ∧ off ≤ 0x4FF) ∨ (0xC00 ≤ off ∧ off ≤ 0xFFF)) :
    s.busWrite off v = { s with mem := Memory.storeBytes s.mem off (bytesOfWord v), resp := .written } := by
  rcases h with h | h
  · simp [State.busWrite, regionAt_txdata h]
  · simp [State.busWrite, regionAt_rxbuf h]

/-- Byte `k` of a word of four bytes is the `k`-th of them (R63). -/
theorem wordOfBytes_byte (f : Nat → Byte) {k : Nat} (hk : k < 4) :
    (wordOfBytes (f 0) (f 1) (f 2) (f 3)).toNat / 2 ^ (8 * k) % 256 = (f k).toNat := by
  have h0 := (f 0).isLt
  have h1 := (f 1).isLt
  have h2 := (f 2).isLt
  have h3 := (f 3).isLt
  simp only [wordOfBytes, BitVec.toNat_ofNat]
  interval_cases k <;> omega

/-- Byte `k` of a buffer word is the byte at the offset plus `k`, read with draw number `k` of this read (R63, R52). -/
theorem State.bufferWord_byte (s : State) (off : Nat) {k : Nat} (hk : k < 4) :
    (s.bufferWord off).toNat / 2 ^ (8 * k) % 256 =
      ((s.byteAt (off + k)).getD (Config.freeByte (s.draws + k))).toNat :=
  wordOfBytes_byte (fun k => readByte s.mem (off + k) (s.draws + k)) hk

/-! ### Accesses of any shape -/

/-- A served read answers read data at every offset. -/
theorem State.busRead_resp (s : State) (off : Nat) : ∃ v, (s.busRead off).resp = .readData v := by
  unfold State.busRead
  cases regionAt off <;> exact ⟨_, rfl⟩

variable {s : State} {e : HostEvent} {width : Nat} {a : BitVec 12} {rest : List HostEvent}

/-- A step on an access that is not 32 bits wide and aligned ends in the error response (R62). -/
theorem step_of_serves_misshapen (h : serves s e rest) (he : e = .read width a ∨ ∃ v, e = .write width a v)
    (hw : wellShaped width a = false) : step s = busError a { s with port := rest } := by
  obtain ⟨hr, hp⟩ := h
  unfold step serveNext
  rw [hp]
  rcases he with rfl | ⟨v, rfl⟩ <;> simp [serveEvent, hr, hw]

/-- A read of any shape that goes on is a served read or the error response (R62). -/
theorem step_read_cases {t : State} (h : serves s (.read width a) rest) (ht : step s = .next t) :
    t = State.busRead { s with port := rest } a.toNat ∨ t = State.errorResponse { s with port := rest } := by
  cases hw : wellShaped width a with
  | true =>
    obtain ⟨rfl, ha⟩ := (wellShaped_iff width a).mp hw
    rw [step_of_serves_read h ha] at ht
    cases ht
    exact .inl rfl
  | false =>
    rw [step_of_serves_misshapen h (.inl rfl) hw] at ht
    exact .inr (busError_next ht)

/-- Settles O13: the word of a buffer read byte by byte, the bytes a stored word writes, and the buffers that store nothing. -/
theorem bufferWordsAreLittleEndian : Obligations.BufferWordsAreLittleEndian := by
  intro s a rest ha
  refine ⟨fun h hoff => ?_, fun v h hoff => ?_, fun v h hoff => ?_⟩
  · have hin : inBuffer a.toNat := by unfold inBuffer; omega
    refine ⟨State.bufferWord s a.toNat, ?_, fun k hk => s.bufferWord_byte a.toNat hk⟩
    rw [step_of_serves_read h ha, State.busRead_buffer _ hin]
    rfl
  · have hc : a ≠ 0x00C := by
      rintro rfl
      revert hoff
      decide
    rw [step_of_serves_write h ha hc, State.busWrite_stored _ v (by omega)]
    exact ⟨_, rfl, rfl, rfl, rfl, rfl, rfl, storesOnly_storeBytes _ _ (bytesOfWord v) _ rfl⟩
  · exact step_of_serves_write_unstored h ha (by omega)

/-- Settles O14: both answers to a read leave everything else as it was. -/
theorem readsHaveNoSideEffects : Obligations.ReadsHaveNoSideEffects := by
  intro s t width a rest h ht
  rcases step_read_cases h ht with rfl | rfl
  · obtain ⟨w, hw⟩ := State.busRead_resp { s with port := rest } a.toNat
    exact ⟨State.busRead_eq { s with port := rest } a.toNat, by simp [hw], by simp [hw]⟩
  · exact ⟨rfl, by simp, by simp⟩

/-- Settles O15: the second write meets the state of the first, and a plain write done twice is done once. -/
theorem plainWritesAreIdempotent : Obligations.PlainWritesAreIdempotent := by
  intro s a v rest ha hc hr hp
  have first := step_of_serves_write ⟨hr, hp⟩ ha hc
  refine ⟨_, _, first, step_of_serves_write ⟨?_, State.busWrite_port ..⟩ ha hc, ?_⟩
  · simpa using hr
  · rw [State.busWrite_withPort (State.busWrite ..), State.busWrite_busWrite]

/-- Settles O8: the error response, under each value of HOST_BUSERR. -/
theorem otherShapesGetABusError : Obligations.OtherShapesGetABusError := by
  intro s width a rest e he h hshape
  have hw : wellShaped width a = false := by
    rw [← Bool.not_eq_true, wellShaped_iff]
    omega
  rw [step_of_serves_misshapen h he hw]
  exact ⟨fun hb => by simp [busError, hb, State.errorResponse], fun hb => by simp [busError, hb]⟩

/-- Settles O17: inside the window the offset is the distance from the base, which 12 bits hold. -/
theorem portOffsetsAreRelativeToTheBase : Obligations.PortOffsetsAreRelativeToTheBase := by
  intro base addr
  unfold portOffset Config.addrWidth
  split
  · next hin =>
    refine ⟨fun off => ?_, by simp only [reduceCtorEq, false_iff]; omega⟩
    rw [Option.some_inj, ← BitVec.toNat_inj, BitVec.toNat_ofNat, Nat.mod_eq_of_lt (by omega)]
    omega
  · next hout =>
    refine ⟨fun off => ?_, by simp only [true_iff]; omega⟩
    have := off.isLt
    simp only [reduceCtorEq, false_iff]
    omega

end Sys2Proof.Machine
end

section
/-! The decoder and the encoder against the opcode map (spec 30 R80 to R84), and the statements about them. -/

namespace Sys2Proof

/-! ### The opcodes of the map -/

/-- The opcode map gives each command under its opcode, from the operand byte of the command or, where it has none, from any
byte (R81, R82). -/
theorem decodeOpcode_opcode (i : Instr) (spare : Byte) : decodeOpcode i.opcode.toNat (i.operand?.getD spare) = .ok i := by
  cases i <;> rfl

/-- The opcodes that the map assigns (R81). -/
theorem opcodeRows_pattern_toNat : ∀ r ∈ opcodeRows,
    r.pattern.toNat ≤ 0x06 ∨ (0x10 ≤ r.pattern.toNat ∧ r.pattern.toNat ≤ 0x12) ∨ r.pattern.toNat = 0xFF := by
  simp [opcodeRows]

/-- An opcode between the assigned ones is reserved (R83). -/
theorem decodeOpcode_reserved {n : Nat} (b : Byte) (h : (0x07 ≤ n ∧ n ≤ 0x0F) ∨ (0x13 ≤ n ∧ n ≤ 0xFE)) :
    decodeOpcode n b = .error (.reservedOpcode (BitVec.ofNat 8 n)) := by
  have hnone : opcodeRows.find? (fun r => BitVec.ofNat 32 n == r.pattern) = none :=
    List.find?_eq_none.mpr fun r hr e => by
      have hp := congrArg BitVec.toNat (beq_iff_eq.mp e)
      rw [BitVec.toNat_ofNat, Nat.mod_eq_of_lt (by omega)] at hp
      have := opcodeRows_pattern_toNat r hr
      omega
  unfold decodeOpcode
  rw [hnone]

/-- Decoding by the low byte, once its value is known (R84). -/
theorem decode_of_opcode {w : Word} {n : Nat} (h : w.toNat % 256 = n) : decode w = decodeOpcode n (operandField w) := by
  rw [decode_eq_decodeOpcode, h]

/-- The ignored bits do not reach the command (R80, R82). -/
theorem decode_encodeWith (i : Instr) (upper : Half) (spare : Byte) : decode (encodeWith i upper spare) = .ok i := by
  unfold encodeWith
  rw [decode_of_opcode (commandWord_mod ..), operandField_commandWord, decodeOpcode_opcode]

/-! ### The statements -/

/-- Settles O2: the fields of an assembled word are the ones put in, and the opcode map gives back the command. -/
theorem decodeOfEncodeIsIdentity : Obligations.DecodeOfEncodeIsIdentity :=
  fun i upper spare _ => decode_encodeWith i upper spare

/-- Settles O3: the decoder looks up the low byte, and each of its values is an opcode of the map or reserved. -/
theorem opcodeByteSelectsTheCommand : Obligations.OpcodeByteSelectsTheCommand := fun w =>
  ⟨fun h => decode_of_opcode h, fun h => decode_of_opcode h,
    fun h => ⟨operandField w, operandField_toNat w, decode_of_opcode h⟩,
    fun h => decode_of_opcode h, fun h => decode_of_opcode h,
    fun h => ⟨operandField w, operandField_toNat w, decode_of_opcode h⟩,
    fun h => decode_of_opcode h, fun h => decode_of_opcode h, fun h => decode_of_opcode h, fun h => decode_of_opcode h,
    fun h => decode_of_opcode h,
    fun h => ⟨_, by simp, (decode_of_opcode rfl).trans (decodeOpcode_reserved _ h)⟩⟩

/-- Settles O1: each word decodes by its low byte. -/
theorem decodesWrittenOutWords : Obligations.DecodesWrittenOutWords := by
  unfold Obligations.DecodesWrittenOutWords
  simp only [decode_eq_decodeOpcode]
  exact ⟨rfl, rfl, rfl, rfl, rfl, rfl, rfl, rfl, rfl, rfl, rfl, rfl, rfl, rfl⟩

end Sys2Proof
end

section
/-! The hex codec: what it writes, what it accepts, and that its two directions are inverse (spec 30 R94, R95). -/

namespace Sys2Proof.Machine

/-- `digit(n)` as a number (R94). -/
theorem hexDigit_toNat {n : Nat} (h : n < 16) : (hexDigit n).toNat = if n ≤ 9 then 0x30 + n else 0x41 + (n - 10) := by
  unfold hexDigit
  split <;> exact Nat.mod_eq_of_lt (by omega)

/-- The characters that have a value (R95). -/
theorem hexValue_isSome (c : Byte) : (hexValue c).isSome = true ↔
    (0x30 ≤ c.toNat ∧ c.toNat ≤ 0x39) ∨ (0x41 ≤ c.toNat ∧ c.toNat ≤ 0x46) := by
  unfold hexValue
  split
  · next h => simp [h]
  · next h9 =>
    split
    · next hF => simp [hF]
    · next hF => simp [h9, hF]

/-- Two characters with values are a byte, the high nibble first (R95). -/
theorem unhexU_cons_cons {c d : Byte} {x y : Nat} (hc : hexValue c = some x) (hd : hexValue d = some y) (s : List Byte) :
    unhexU (c :: d :: s) = (unhexU s).map (BitVec.ofNat 8 (x * 16 + y) :: ·) := by
  simp only [unhexU, hc, hd]
  cases unhexU s <;> rfl

/-- Everything `unhexU` accepts after no character: two characters with values, and a rest it accepts. -/
theorem unhexU_cons_cons_eq_some {c d : Byte} {s bs : List Byte} (h : unhexU (c :: d :: s) = some bs) :
    ∃ x y t, hexValue c = some x ∧ hexValue d = some y ∧ unhexU s = some t ∧ bs = BitVec.ofNat 8 (x * 16 + y) :: t := by
  unfold unhexU at h
  split at h
  · next x y t hc hd ht => exact ⟨x, y, t, hc, hd, ht, (Option.some.inj h).symm⟩
  · cases h

/-- The nibbles of a byte written by `hexU` are read back (R94, R95). -/
theorem unhexU_hexU (s : List Byte) : unhexU (hexU s) = some s := by
  induction s with
  | nil => rfl
  | cons b s ih =>
    have hb := b.isLt
    rw [hexU, unhexU_cons_cons (hexValue_hexDigit _ (by omega)) (hexValue_hexDigit _ (by omega)), ih, Nat.div_add_mod']
    simp

/-- The characters `unhexU` reads are those `hexU` writes (R95). -/
theorem hexU_of_unhexU {cs s : List Byte} (h : unhexU cs = some s) : hexU s = cs := by
  induction cs using List.twoStepInduction generalizing s with
  | nil => cases h; rfl
  | singleton c => cases h
  | cons_cons c d cs ih _ =>
    obtain ⟨x, y, t, hc, hd, ht, rfl⟩ := unhexU_cons_cons_eq_some h
    obtain ⟨hx, rfl⟩ := hexDigit_of_hexValue hc
    obtain ⟨hy, rfl⟩ := hexDigit_of_hexValue hd
    have hb : (BitVec.ofNat 8 (x * 16 + y)).toNat = x * 16 + y := Nat.mod_eq_of_lt (by omega)
    rw [hexU, hb, ih ht, show (x * 16 + y) / 16 = x by omega, show (x * 16 + y) % 16 = y by omega]

/-- `unhexU` is defined on two more characters where both have a value and it is defined on the rest (R95). -/
theorem unhexU_cons_cons_isSome (c d : Byte) (s : List Byte) : (unhexU (c :: d :: s)).isSome = true ↔
    (hexValue c).isSome = true ∧ (hexValue d).isSome = true ∧ (unhexU s).isSome = true := by
  constructor
  · intro h
    obtain ⟨bs, hbs⟩ := Option.isSome_iff_exists.mp h
    obtain ⟨x, y, t, hc, hd, ht, -⟩ := unhexU_cons_cons_eq_some hbs
    simp [hc, hd, ht]
  · rintro ⟨hc, hd, hs⟩
    obtain ⟨x, hx⟩ := Option.isSome_iff_exists.mp hc
    obtain ⟨y, hy⟩ := Option.isSome_iff_exists.mp hd
    rw [unhexU_cons_cons hx hy, Option.isSome_map, hs]

/-- `unhexU` is defined on the lists of an even number of characters with values (R95). -/
theorem unhexU_isSome (cs : List Byte) :
    (unhexU cs).isSome = true ↔ cs.length % 2 = 0 ∧ ∀ c ∈ cs, (hexValue c).isSome = true := by
  induction cs using List.twoStepInduction with
  | nil => simp [unhexU]
  | singleton c => simp [unhexU]
  | cons_cons c d cs ih _ =>
    rw [unhexU_cons_cons_isSome, ih, List.forall_mem_cons, List.forall_mem_cons]
    have hl : (c :: d :: cs).length % 2 = cs.length % 2 := Nat.add_mod_right cs.length 2
    rw [hl]
    tauto

/-- Settles O36: the digits, the two directions of the inverse, and the characters with a value. -/
theorem hexCodecIsExact : Obligations.HexCodecIsExact :=
  ⟨fun _ => hexDigit_toNat, rfl, fun _ _ => rfl, fun s => ⟨hexU_length s, unhexU_hexU s⟩,
    fun cs => by simp only [unhexU_isSome, hexValue_isSome], fun _ _ => hexU_of_unhexU⟩

end Sys2Proof.Machine
end

section
/-! A successful ENCODE: its whole effect, said once for every binding, and the statement of each binding (spec 41 R144 to
R147). -/

namespace Sys2Proof.Machine

/-- A successful ENCODE stores its ADU in TXBUF, writes ADULEN, TID, REQCAP and STATUS, uses up one draw for each byte it reads,
and leaves everything else (R147). -/
theorem exec_encode_success {s : State} {b : Binding} (hb : s.regs.ctrl.bindingOf = some b) (hl : s.regs.txlen.toNat ≤ 252) :
    ∃ t, exec .encode s = .next t ∧ keepsPins s t ∧ t.draws = s.draws + s.regs.txlen.toNat ∧
      storesOnly s t 0x800 (encodedAdu s b) ∧ t.regs.adulen.toNat = (encodedAdu s b).length ∧
      t.regs = { s.regs with
        adulen := t.regs.adulen
        tid := nextTid b s.regs.tid
        reqcap := { tid := captureTid b s.regs.tid, fc := s.regs.fc, unit := s.regs.unit }
        status := { s.regs.status with result := 0x00, done := true, reqv := true, rspv := false } } := by
  refine ⟨encodeDone s b, ?_, ?_⟩
  · rcases execEncode_cases s with ⟨h3, -⟩ | ⟨-, -, hlong, -⟩ | ⟨c, hc, -, h⟩
    · cases hb.symm.trans ((Ctrl.bindingOf_eq_none _).mpr h3)
    · omega
    · cases hb.symm.trans hc
      exact h
  · have ha := encodeDone_adulen_toNat b hl
    rw [encodeDone_eq] at ha ⊢
    exact ⟨⟨rfl, rfl, rfl⟩, rfl, storesOnly_storeBytes _ _ _ _ rfl, ha, rfl⟩

/-- The data field of the ADU is as long as TXLEN says (R142). -/
theorem encodedData_length (s : State) :
    (swapIf s.regs.ctrl.refout (s.bufferBytes 0x400 s.regs.txlen.toNat)).length = s.regs.txlen.toNat := by
  rw [swapIf_length, State.bufferBytes_length]

/-- Settles O42: the effect of ENCODE with the RTU ADU. -/
theorem encodeRtu : Obligations.EncodeRtu := by
  intro s hb hl
  obtain ⟨t, he, hpins, hdraws, hstores, hadulen, hregs⟩ := exec_encode_success ((Ctrl.bindingOf_eq_rtu _).mpr hb) hl
  have hlen : (encodedAdu s .rtu).length = s.regs.txlen.toNat + 4 := by
    rw [encodedAdu, aduOf, rtuAdu_length, encodedData_length]
  exact ⟨t, he, hpins, hdraws, hstores, hadulen.trans hlen, hregs⟩

/-- Settles O43: the effect of ENCODE with the ASCII ADU. -/
theorem encodeAscii : Obligations.EncodeAscii := by
  intro s hb hl
  obtain ⟨t, he, hpins, hdraws, hstores, hadulen, hregs⟩ := exec_encode_success ((Ctrl.bindingOf_eq_ascii _).mpr hb) hl
  have hlen : (encodedAdu s .ascii).length = 2 * s.regs.txlen.toNat + 9 := by
    rw [encodedAdu, aduOf, asciiAdu_length, encodedData_length]
  exact ⟨t, he, hpins, hdraws, hstores, hadulen.trans hlen, hregs⟩

/-- The TCP ADU with its header written out as numbers (R92). -/
theorem tcpAdu_eq (t : Half) (u f : Byte) {d : List Byte} (h : d.length ≤ 252) :
    tcpAdu t u f d = [BitVec.ofNat 8 (t.toNat / 256), BitVec.ofNat 8 t.toNat, 0, 0, BitVec.ofNat 8 ((d.length + 2) / 256),
      BitVec.ofNat 8 (d.length + 2), u, f] ++ d := by
  have hn : (BitVec.ofNat 16 (d.length + 2)).toNat = d.length + 2 := Nat.mod_eq_of_lt (by omega)
  simp [tcpAdu, be16, hi8, lo8, hn]

/-- Settles O44: the effect of ENCODE with the TCP ADU, and TID one further. -/
theorem encodeTcp : Obligations.EncodeTcp := by
  intro s hb hl
  obtain ⟨t, he, hpins, hdraws, hstores, hadulen, hregs⟩ := exec_encode_success ((Ctrl.bindingOf_eq_tcp _).mpr hb) hl
  have hd := encodedData_length s
  have hlen : (encodedAdu s .tcp).length = s.regs.txlen.toNat + 8 := by
    rw [encodedAdu, aduOf, tcpAdu_length, hd]
  have htid : t.regs.tid = nextTid .tcp s.regs.tid := by rw [hregs]
  rw [encodedAdu, aduOf, tcpAdu_eq _ _ _ (hd.trans_le hl), hd] at hstores
  refine ⟨t, he, hpins, hdraws, hstores, hadulen.trans hlen, ?_, ?_⟩
  · rw [htid, nextTid, BitVec.toNat_ofNat]
  · rw [htid]
    exact hregs

end Sys2Proof.Machine
end

section
/-! The checksum commands: what each one does, said once, and the statement of each command (spec 40 R123 to R130). -/

namespace Sys2Proof.Machine

/-! ### How a command reports -/

/-- An error code of 0x02 or more sets ERR (R27). -/
theorem State.finish_error (s : State) {c : Code} (h : 2 ≤ c.num.toNat) : s.finish c = { s with regs := { s.regs with
    status := { s.regs.status with result := c.num, done := true, err := true } } } := by
  simp [State.finish, Status.finish, h]

/-- OK keeps ERR (R27). -/
theorem State.finish_ok (s : State) : s.finish .ok = { s with regs := { s.regs with
    status := { s.regs.status with result := 0x00, done := true } } } := by
  simp [State.finish, Status.finish, Code.num]

/-! ### The commands -/

variable (b : Byte) (s : State)

theorem exec_crcInit : exec .crcInit s = .next { s with regs := { s.regs with crc := 0xFFFF } } := rfl

theorem exec_crcByte : exec (.crcByte b) s = .next { s with regs := { s.regs with crc := crcStep s.regs.crc b } } := rfl

theorem exec_lrcInit : exec .lrcInit s = .next { s with regs := { s.regs with lrcsum := 0 } } := rfl

theorem exec_lrcByte : exec (.lrcByte b) s = .next { s with regs := { s.regs with lrcsum := s.regs.lrcsum + b } } := rfl

/-- The sum of a byte sequence modulo 256, one byte at a time (R122). -/
theorem foldl_add_eq_ofNat_byteSum (x : Byte) (bs : List Byte) :
    bs.foldl (fun x y => x + y) x = BitVec.ofNat 8 (x.toNat + byteSum bs) := by
  induction bs generalizing x with
  | nil => simp
  | cons b bs ih =>
    rw [List.foldl_cons, ih, byteSum_cons]
    apply BitVec.eq_of_toNat_eq
    simp [Nat.add_assoc]

variable {s}

/-- CRC.BUF with RXLEN past the end of RXBUF (R126). -/
theorem exec_crcBuf_of_long (h : 1024 < s.regs.rxlen.toNat) : exec .crcBuf s = .next (s.finish .errRxlen) := if_pos h

/-- CRC.BUF with RXLEN in range (R126). -/
theorem exec_crcBuf_of_le (h : s.regs.rxlen.toNat ≤ 1024) : exec .crcBuf s = .next { s with
    draws := s.draws + s.regs.rxlen.toNat
    regs := { s.regs with
      crc := crcFold s.regs.crc (s.bufferBytes 0xC00 s.regs.rxlen.toNat)
      status := { s.regs.status with result := 0x00, done := true } } } := by
  have he : exec .crcBuf s = _ := if_neg (Nat.not_lt.mpr h)
  rw [he, State.finish_ok, State.operandBytes_eq_bufferBytes]
  rfl

/-- LRC.BUF with RXLEN past the end of RXBUF (R130). -/
theorem exec_lrcBuf_of_long (h : 1024 < s.regs.rxlen.toNat) : exec .lrcBuf s = .next (s.finish .errRxlen) := if_pos h

/-- LRC.BUF with RXLEN in range (R130). -/
theorem exec_lrcBuf_of_le (h : s.regs.rxlen.toNat ≤ 1024) : exec .lrcBuf s = .next { s with
    draws := s.draws + s.regs.rxlen.toNat
    regs := { s.regs with
      lrcsum := (s.bufferBytes 0xC00 s.regs.rxlen.toNat).foldl (fun x y => x + y) s.regs.lrcsum
      status := { s.regs.status with result := 0x00, done := true } } } := by
  have he : exec .lrcBuf s = _ := if_neg (Nat.not_lt.mpr h)
  rw [he, State.finish_ok, State.operandBytes_eq_bufferBytes, foldl_add_eq_ofNat_byteSum]
  rfl

/-! ### The bits of a step -/

/-- The feedback bit as arithmetic (R120). -/
theorem crcBit_eq_ite_mod (c : Half) : crcBit c = if c.toNat % 2 = 1 then (c >>> 1) ^^^ 0xA001 else c >>> 1 := by
  unfold crcBit
  simp only [BitVec.getLsbD, Nat.testBit_zero, decide_eq_true_eq]

theorem crcBits_eq_iterate (n : Nat) (c : Half) : crcBits n c = crcBit^[n] c := by
  induction n generalizing c with
  | zero => rfl
  | succ n ih => exact ih (crcBit c)

/-- `crc16_step` as the loop of R120. -/
theorem crcStep_eq_iterate (c : Half) (b : Byte) :
    crcStep c b = (fun c : Half => if c.toNat % 2 = 1 then (c >>> 1) ^^^ 0xA001 else c >>> 1)^[8]
      (c ^^^ BitVec.ofNat 16 b.toNat) := by
  rw [crcStep, crcBits_eq_iterate, funext crcBit_eq_ite_mod, BitVec.ofNat_toNat]

/-! ### The statements -/

/-- Settles O25: CRC.BUF on both sides of the bound. -/
theorem crcBufFoldsTheReceivedBytes : Obligations.CrcBufFoldsTheReceivedBytes :=
  ⟨fun _ hw => decode_of_opcode hw, fun s =>
    ⟨fun h => (exec_crcBuf_of_long h).trans (congrArg _ (s.finish_error (by decide))), exec_crcBuf_of_le⟩⟩

/-- Settles O28: LRC.BUF on both sides of the bound. -/
theorem lrcBufAddsTheReceivedBytes : Obligations.LrcBufAddsTheReceivedBytes :=
  ⟨fun _ hw => decode_of_opcode hw, fun s =>
    ⟨fun h => (exec_lrcBuf_of_long h).trans (congrArg _ (s.finish_error (by decide))), exec_lrcBuf_of_le⟩⟩

/-- Settles O23: the initial value does not depend on the CRC before it. -/
theorem crcInitSetsTheInitialValue : Obligations.CrcInitSetsTheInitialValue := by
  refine ⟨exec_crcInit, fun s t h => ?_, fun w hw => decode_of_opcode hw⟩
  cases h
  exact exec_crcInit _

/-- Settles O24: the step as the loop of R120, and its three values. -/
theorem crcByteFoldsOneByte : Obligations.CrcByteFoldsOneByte := by
  have value (c d : Half) (b : Byte) (hv : crcStep c b = d) (s t : State) (hc : s.regs.crc = c)
      (h : exec (.crcByte b) s = .next t) : t.regs.crc = d := by
    cases (exec_crcByte b s).symm.trans h
    exact hc ▸ hv
  refine ⟨fun b s => ?_, value _ _ _ (by decide), value _ _ _ (by decide), value _ _ _ (by decide),
    fun w hw => decode_of_opcode hw⟩
  rw [exec_crcByte, crcStep_eq_iterate]

/-- Settles O26: LRC of the sum 0 is 0. -/
theorem lrcInitClearsTheSum : Obligations.LrcInitClearsTheSum := by
  refine ⟨exec_lrcInit, fun s t h => ?_, fun w hw => decode_of_opcode hw⟩
  cases h
  exact setWidth_lrcOfSum 0

/-- Settles O27: addition of bytes, and its values. -/
theorem lrcByteAddsOneByte : Obligations.LrcByteAddsOneByte := by
  have sum (x y : Byte) (b : Byte) (hv : x + b = y) (s t : State) (hx : s.regs.lrcsum = x)
      (h : exec (.lrcByte b) s = .next t) : t.regs.lrcsum = y := by
    cases (exec_lrcByte b s).symm.trans h
    exact hx ▸ hv
  refine ⟨fun b s => ?_, fun s => ?_, sum _ _ _ (by decide), fun s t hs h => ?_, fun w hw => decode_of_opcode hw⟩
  · have hsum : s.regs.lrcsum + b = BitVec.ofNat 8 ((s.regs.lrcsum.toNat + b.toNat) % 256) := by
      apply BitVec.eq_of_toNat_eq
      simp
    rw [exec_lrcByte, hsum]
  · rw [exec_lrcByte, show s.regs.lrcsum + 0x00 = s.regs.lrcsum from BitVec.add_zero _]
  · have ht := sum _ 0x0E _ (by decide) s t hs h
    refine ⟨ht, ?_⟩
    rw [Regs.read, ht]
    decide

end Sys2Proof.Machine
end

section
/-! The CRC as an algebra: the table-driven step, and the residue of a sequence followed by its CRC (spec 40 R125, R127). -/

namespace Sys2Proof.Machine

@[simp] theorem crcBits_zero (n : Nat) : crcBits n 0#16 = 0#16 := by
  rw [crcBits_of_low_zero n _ (fun _ _ => BitVec.getLsbD_zero), BitVec.zero_ushiftRight]

/-- A byte that meets itself in the CRC leaves 0. -/
@[simp] theorem crcStep_setWidth (b : Byte) : crcStep (b.setWidth 16) b = 0#16 := by
  rw [crcStep, BitVec.xor_self, crcBits_zero]

theorem lo8_eq_setWidth (c : Half) : lo8 c = c.setWidth 8 := BitVec.ofNat_toNat 8 c

/-- The high byte is what is left when the low byte is shifted out. -/
theorem ushiftRight_eight_eq_hi8 (c : Half) : c >>> 8 = (hi8 c).setWidth 16 := by
  apply BitVec.eq_of_toNat_eq
  have := c.isLt
  simp [hi8, Nat.shiftRight_eq_div_pow]
  omega

theorem setWidth_ushiftRight_eight (b : Byte) : (b.setWidth 16 : Half) >>> 8 = 0#16 := by
  apply BitVec.eq_of_toNat_eq
  have := b.isLt
  simp [Nat.shiftRight_eq_div_pow]
  omega

/-- The table-driven step (R125): the high byte moves down, the low byte with `b` folded in selects the table's entry. -/
theorem crcStep_eq_table (c : Half) (b : Byte) : crcStep c b = (c >>> 8) ^^^ crcStep 0#16 (lo8 (c ^^^ b.setWidth 16)) := by
  have entry (x : Byte) : crcStep 0#16 x = crcBits 8 (x.setWidth 16) := by rw [crcStep, BitVec.zero_xor]
  rw [entry, crcStep, crcBits_eight, BitVec.ushiftRight_xor_distrib, setWidth_ushiftRight_eight, BitVec.xor_zero, lo8]

/-- A CRC register that takes in its own two bytes, low byte first, is 0: the low byte cancels the table index, and the high
byte, moved down, cancels itself. -/
theorem crcFold_le16_self (c : Half) : crcFold c (le16 c) = 0#16 := by
  have hindex : lo8 (c ^^^ (lo8 c).setWidth 16) = 0#8 := by simp [lo8_eq_setWidth, BitVec.setWidth_xor]
  have hentry : crcStep 0#16 0#8 = 0#16 := crcStep_setWidth 0#8
  have hlow : crcStep c (lo8 c) = (hi8 c).setWidth 16 := by
    rw [crcStep_eq_table, hindex, hentry, BitVec.xor_zero, ushiftRight_eight_eq_hi8]
  calc crcFold c (le16 c) = crcStep (crcStep c (lo8 c)) (hi8 c) := rfl
    _ = 0#16 := by rw [hlow, crcStep_setWidth]

/-- A sequence followed by its CRC leaves the residue 0 (R127). -/
theorem crc16_append_le16 (s : List Byte) : crc16 (s ++ le16 (crc16 s)) = 0#16 := by
  rw [crc16, crcFold_append]
  exact crcFold_le16_self _

/-- Settles O29: the table-driven step, with its index written out. -/
theorem tableDrivenCrcStep : Obligations.TableDrivenCrcStep := by
  intro c b
  rw [BitVec.ofNat_toNat 16 b]
  exact crcStep_eq_table c b

/-- Settles O30: the residue, and the two values by evaluation. -/
theorem crcResidueIsZero : Obligations.CrcResidueIsZero :=
  ⟨crc16_append_le16, by decide +kernel, rfl⟩

end Sys2Proof.Machine
end

section
/-! The streaming checksum commands against the bulk ones: runs of command words at the port, and RXBUF as a list of bytes
(spec 40 R127, R131; 30 R86). -/

namespace Sys2Proof.Machine

/-! ### Runs of commands -/

/-- A step on a command the host issued runs it (R30, R86). -/
theorem step_of_serves_hostCmd {s : State} {i : Instr} {rest : List HostEvent} (h : serves s (hostCmd i) rest) :
    step s = exec i { s with port := rest, resp := .written } :=
  stepRunsTheDecodedCommand s (encode i) rest i h (decode_encodeWith i 0 0)

/-- Commands that change registers only, issued one after another, change the registers one after another. -/
theorem runsFor_hostCmds {α : Type} {cmd : α → Instr} {upd : Regs → α → Regs}
    (hcmd : ∀ a s, exec (cmd a) s = .next { s with regs := upd s.regs a }) (as : List α) {s : State} (hr : s.rstN = true)
    (hp : s.port = as.map (fun a => hostCmd (cmd a))) :
    ∃ t, runsFor as.length s t ∧ t.regs = as.foldl upd s.regs ∧ t.port = [] := by
  induction as generalizing s with
  | nil => exact ⟨s, runsFor_zero s, rfl, hp⟩
  | cons a as ih =>
    have hs := (step_of_serves_hostCmd ⟨hr, hp⟩).trans (hcmd a _)
    obtain ⟨t, hrun, hregs, hport⟩ := ih (s := { s with port := _, resp := .written, regs := upd s.regs a }) hr rfl
    exact ⟨t, runsFor_succ hs hrun, hregs, hport⟩

/-- The same after a first command that changes registers only. -/
theorem runsFor_hostCmd_hostCmds {α : Type} {i : Instr} {init : Regs → Regs} {cmd : α → Instr} {upd : Regs → α → Regs}
    (hi : ∀ s, exec i s = .next { s with regs := init s.regs })
    (hcmd : ∀ a s, exec (cmd a) s = .next { s with regs := upd s.regs a }) (as : List α) {s : State} (hr : s.rstN = true)
    (hp : s.port = hostCmd i :: as.map (fun a => hostCmd (cmd a))) :
    ∃ t, runsFor (as.length + 1) s t ∧ t.regs = as.foldl upd (init s.regs) ∧ t.port = [] := by
  have hs := (step_of_serves_hostCmd ⟨hr, hp⟩).trans (hi _)
  obtain ⟨t, hrun, hrest⟩ := runsFor_hostCmds hcmd as (s := { s with port := _, resp := .written, regs := init s.regs }) hr rfl
  exact ⟨t, runsFor_succ hs hrun, hrest⟩

/-- CRC.BYTE for each byte folds the bytes (R124, R126). -/
theorem foldl_crcByte (g : Regs) (bytes : List Byte) :
    bytes.foldl (fun g b => { g with crc := crcStep g.crc b }) g = { g with crc := crcFold g.crc bytes } := by
  induction bytes generalizing g with
  | nil => rfl
  | cons b bytes ih => exact ih { g with crc := crcStep g.crc b }

/-- LRC.BYTE for each byte sums the bytes (R129, R130). -/
theorem foldl_lrcByte (g : Regs) (bytes : List Byte) :
    bytes.foldl (fun g b => { g with lrcsum := g.lrcsum + b }) g =
      { g with lrcsum := bytes.foldl (fun x y => x + y) g.lrcsum } := by
  induction bytes generalizing g with
  | nil => rfl
  | cons b bytes ih => exact ih { g with lrcsum := g.lrcsum + b }

/-! ### The byte sum -/

/-- The sum from 0 is the byte sum modulo 256 (R122). -/
theorem toNat_foldl_add_zero (bytes : List Byte) :
    (bytes.foldl (fun x y => x + y) 0#8).toNat = byteSum bytes % 256 := by
  rw [foldl_add_eq_ofNat_byteSum]
  simp

/-- LRC reads the LRC of the bytes whose sum LRCSUM holds (R42, R122). -/
theorem Regs.read_lrc_of_lrcsum {g : Regs} {bytes : List Byte} (h : g.lrcsum.toNat = byteSum bytes % 256) :
    g.read .lrc = BitVec.ofNat 32 (lrc8 bytes).toNat := by
  have hl : (lrc8 bytes).toNat = (256 - byteSum bytes % 256) % 256 := by simp [lrc8]
  rw [Regs.read, setWidth_lrcOfSum, h, hl]

theorem byteSum_add_lrc8 (s : List Byte) : (byteSum s + (lrc8 s).toNat) % 256 = 0 := by
  simpa using (byteSum_append_lrc (lrc8 s) s).mpr rfl

/-- The byte that `set` replaces leaves the sum and the new one enters it. -/
theorem byteSum_set (s : List Byte) {i : Nat} (b : Byte) (h : i < s.length) :
    byteSum (s.set i b) + s[i].toNat = byteSum s + b.toNat := by
  induction s generalizing i with
  | nil => cases h
  | cons a s ih =>
    cases i with
    | zero => simp; omega
    | succ i =>
      have := ih (Nat.lt_of_succ_lt_succ h)
      simp only [List.set_cons_succ, byteSum_cons, List.getElem_cons_succ]
      omega

/-! ### The statements -/

/-- Settles O31: the streaming run folds the bytes the bulk command reads. -/
theorem streamingCrcEqualsBulkCrc : Obligations.StreamingCrcEqualsBulkCrc := by
  intro bytes
  refine ⟨fun s hr hp => ?_, fun s hl hn hb => ?_⟩
  · obtain ⟨t, hrun, hregs, hport⟩ :=
      runsFor_hostCmd_hostCmds (init := fun g => { g with crc := 0xFFFF })
        (upd := fun g b => { g with crc := crcStep g.crc b }) exec_crcInit exec_crcByte bytes hr hp
    refine ⟨t, hrun, ?_, hport⟩
    rw [hregs, foldl_crcByte]
    rfl
  · refine ⟨_, _, exec_crcInit s, exec_crcBuf_of_le (hn.trans_le hl), ?_⟩
    have hbytes : s.bufferBytes 0xC00 s.regs.rxlen.toNat = bytes := hn ▸ State.bufferBytes_eq_of_written hb
    exact congrArg (crcFold 0xFFFF) hbytes

/-- Settles O32: the streaming run and the bulk command leave the same sum, from which LRC is read; the sum of a changed
sequence differs by the change. -/
theorem lrcLaws : Obligations.LrcLaws := by
  refine ⟨byteSum_add_lrc8, fun bytes s hr hp => ?_, fun bytes s hl hn hb => ?_, fun s i b hi hne heq => ?_⟩
  · obtain ⟨t, hrun, hregs, -⟩ :=
      runsFor_hostCmd_hostCmds (init := fun g => { g with lrcsum := 0 })
        (upd := fun g b => { g with lrcsum := g.lrcsum + b }) exec_lrcInit exec_lrcByte bytes hr hp
    have hsum : t.regs.lrcsum.toNat = byteSum bytes % 256 := by
      rw [hregs, foldl_lrcByte]
      exact toNat_foldl_add_zero bytes
    exact ⟨t, hrun, hsum, Regs.read_lrc_of_lrcsum hsum⟩
  · have hbytes : s.bufferBytes 0xC00 s.regs.rxlen.toNat = bytes := hn ▸ State.bufferBytes_eq_of_written hb
    have hsum : ((s.bufferBytes 0xC00 s.regs.rxlen.toNat).foldl (fun x y => x + y) 0#8).toNat = byteSum bytes % 256 := by
      rw [hbytes, toNat_foldl_add_zero]
    exact ⟨_, _, exec_lrcInit s, exec_lrcBuf_of_le (hn.trans_le hl), hsum, Regs.read_lrc_of_lrcsum hsum⟩
  · have hset := byteSum_set s b hi
    have hb : s[i] = b := by
      have := s[i].isLt
      have := b.isLt
      apply BitVec.eq_of_toNat_eq
      omega
    exact hne (by rw [List.getElem?_eq_getElem hi, hb])

end Sys2Proof.Machine
end

section
/-! The checksum unit and the framer share no state but STATUS (spec 40 R132). -/

namespace Sys2Proof.Machine

/-! ### Framing commands from other accumulator values -/

/-- The state with other values in CRC and LRCSUM. -/
def State.withAccumulators (s : State) (c : Half) (l : Byte) : State :=
  { s with regs := { s.regs with crc := c, lrcsum := l } }

section
variable (s : State) (c : Half) (l : Byte)

@[simp] theorem State.withAccumulators_ctrl : (s.withAccumulators c l).regs.ctrl = s.regs.ctrl := rfl
@[simp] theorem State.withAccumulators_rxlen : (s.withAccumulators c l).regs.rxlen = s.regs.rxlen := rfl

theorem State.decodeFrame_withAccumulators (b : Binding) (r : List Byte) :
    (s.withAccumulators c l).decodeFrame b r = (s.decodeFrame b r).withAccumulators c l := by
  unfold State.decodeFrame
  cases parseAdu b r with
  | error x => rfl
  | ok fr =>
    dsimp only
    by_cases hx : isException fr.fc = true
    · rw [if_pos hx, if_pos hx]
      split <;> rfl
    · rw [if_neg hx, if_neg hx]
      rfl

end

variable {s t : State} (c : Half) (l : Byte)

theorem exec_encode_withAccumulators (h : exec .encode s = .next t) :
    exec .encode (s.withAccumulators c l) = .next (t.withAccumulators c l) := by
  change execEncode s = .next t at h
  change execEncode (s.withAccumulators c l) = _
  unfold execEncode at h ⊢
  rw [State.withAccumulators_ctrl]
  split at h
  · next hb => cases h; rfl
  · next b hb =>
    split at h
    · next hl => cases h; exact if_pos hl
    · next hl => cases h; exact if_neg hl

theorem exec_decode_withAccumulators (h : exec .decode s = .next t) :
    exec .decode (s.withAccumulators c l) = .next (t.withAccumulators c l) := by
  change execDecode s = .next t at h
  change execDecode (s.withAccumulators c l) = _
  unfold execDecode at h ⊢
  rw [State.withAccumulators_ctrl, State.withAccumulators_rxlen]
  split at h
  · next hb => cases h; rfl
  · next b hb =>
    split at h
    · next hshort => cases h; exact if_pos hshort
    · next hshort =>
      rw [if_neg hshort]
      split at h
      · next hlong => cases h; exact if_pos hlong
      · next hlong =>
        cases h
        rw [if_neg hlong, ← State.decodeFrame_withAccumulators]
        rfl

/-- R132: a framing command does from other accumulator values what it does from the ones it has. -/
theorem exec_withAccumulators {i : Instr} (hi : i = .encode ∨ i = .decode ∨ i = .verify) (h : exec i s = .next t) :
    exec i (s.withAccumulators c l) = .next (t.withAccumulators c l) := by
  rcases hi with rfl | rfl | rfl
  · exact exec_encode_withAccumulators c l h
  · exact exec_decode_withAccumulators c l h
  · rw [exec_verify] at h ⊢
    cases h
    rfl

/-- Settles O33: started from the accumulators that it has, a framing command ends with them. -/
theorem framerIgnoresTheAccumulators : Obligations.FramerIgnoresTheAccumulators := by
  intro i s t c l hi h
  have ht : t = t.withAccumulators s.regs.crc s.regs.lrcsum :=
    Host.Outcome.next.inj (h.symm.trans (exec_withAccumulators s.regs.crc s.regs.lrcsum hi h))
  exact ⟨by rw [ht]; rfl, by rw [ht]; rfl, exec_withAccumulators c l hi h⟩

/-! ### Checksum commands from other framer state -/

/-- R40, R41, R43, R47: the state that the checksum commands compute from agrees: CRC, LRCSUM, RXLEN and RXBUF. -/
structure AgreeOnChecksum (s t : State) : Prop where
  crc : t.regs.crc = s.regs.crc
  lrcsum : t.regs.lrcsum = s.regs.lrcsum
  rxlen : t.regs.rxlen = s.regs.rxlen
  draws : t.draws = s.draws
  rxbuf : ∀ a, 0xC00 ≤ a → a ≤ 0xFFF → t.byteAt a = s.byteAt a

theorem AgreeOnChecksum.bufferBytes {s t : State} (h : AgreeOnChecksum s t) {n : Nat} (hn : n ≤ 1024) :
    t.bufferBytes 0xC00 n = s.bufferBytes 0xC00 n := by
  refine List.map_congr_left fun k hk => ?_
  have := List.mem_range.mp hk
  rw [h.draws, h.rxbuf _ (by omega) (by omega)]

/-- Both BUF commands end the same way with RXLEN past the end of RXBUF (R126, R130). -/
theorem exec_buf_of_long {i : Instr} (hi : i = .crcBuf ∨ i = .lrcBuf) (h : 1024 < s.regs.rxlen.toNat) :
    exec i s = .next (s.finish .errRxlen) := by
  rcases hi with rfl | rfl
  · exact exec_crcBuf_of_long h
  · exact exec_lrcBuf_of_long h

variable {i : Instr} {s' t' : State}

/-- The BUF commands compute the accumulators and the report from the same state, up to the ERR that was there. -/
theorem AgreeOnChecksum.exec_buf (ha : AgreeOnChecksum s s') (hi : i = .crcBuf ∨ i = .lrcBuf) (h : exec i s = .next t)
    (h' : exec i s' = .next t') :
    t'.regs.crc = t.regs.crc ∧ t'.regs.lrcsum = t.regs.lrcsum ∧ t'.draws = t.draws ∧
      t'.regs.status.result = t.regs.status.result ∧ t'.regs.status.done = t.regs.status.done ∧
      (s'.regs.status.err = s.regs.status.err → t'.regs.status.err = t.regs.status.err) := by
  have hdraws : s'.draws + s'.regs.rxlen.toNat = s.draws + s.regs.rxlen.toNat := by rw [ha.draws, ha.rxlen]
  rcases Nat.lt_or_ge 1024 s.regs.rxlen.toNat with hlong | hle
  · cases (exec_buf_of_long hi hlong).symm.trans h
    cases (exec_buf_of_long hi (ha.rxlen ▸ hlong)).symm.trans h'
    exact ⟨ha.crc, ha.lrcsum, ha.draws, rfl, rfl, fun he => congrArg (· || _) he⟩
  · have hle' : s'.regs.rxlen.toNat ≤ 1024 := ha.rxlen ▸ hle
    have hbytes : s'.bufferBytes 0xC00 s'.regs.rxlen.toNat = s.bufferBytes 0xC00 s.regs.rxlen.toNat := by
      rw [ha.rxlen, ha.bufferBytes hle]
    rcases hi with rfl | rfl
    · cases (exec_crcBuf_of_le hle).symm.trans h
      cases (exec_crcBuf_of_le hle').symm.trans h'
      exact ⟨congrArg₂ crcFold ha.crc hbytes, ha.lrcsum, hdraws, rfl, rfl, id⟩
    · cases (exec_lrcBuf_of_le hle).symm.trans h
      cases (exec_lrcBuf_of_le hle').symm.trans h'
      exact ⟨ha.crc, congrArg₂ (List.foldl _) ha.lrcsum hbytes, hdraws, rfl, rfl, id⟩

/-- The other checksum commands write an accumulator from the accumulators alone, and no STATUS. -/
theorem AgreeOnChecksum.exec_streaming (ha : AgreeOnChecksum s s')
    (hi : i = .crcInit ∨ i = .lrcInit ∨ ∃ b, i = .crcByte b ∨ i = .lrcByte b) (h : exec i s = .next t)
    (h' : exec i s' = .next t') :
    t'.regs.crc = t.regs.crc ∧ t'.regs.lrcsum = t.regs.lrcsum ∧ t'.draws = t.draws := by
  rcases hi with rfl | rfl | ⟨b, rfl | rfl⟩ <;> cases h <;> cases h'
  · exact ⟨rfl, ha.lrcsum, ha.draws⟩
  · exact ⟨ha.crc, rfl, ha.draws⟩
  · exact ⟨congrArg (crcStep · b) ha.crc, ha.lrcsum, ha.draws⟩
  · exact ⟨ha.crc, by simp [ha.lrcsum], ha.draws⟩

/-- The streaming checksum commands report nothing (R123, R124, R128, R129). -/
theorem exec_streaming_status (hi : i = .crcInit ∨ i = .lrcInit ∨ ∃ b, i = .crcByte b ∨ i = .lrcByte b)
    (h : exec i s = .next t) : t.regs.status = s.regs.status := by
  rcases hi with rfl | rfl | ⟨b, rfl | rfl⟩ <;> cases h <;> rfl

/-- Settles O34: the frame of the small commands, and what the two BUF commands and the four others compute from. -/
theorem checksumCommandsIgnoreTheFramer : Obligations.ChecksumCommandsIgnoreTheFramer := by
  intro i s t s' t' hi h h'
  have hkind : (i = .crcBuf ∨ i = .lrcBuf) ∨ (i = .crcInit ∨ i = .lrcInit ∨ ∃ b, i = .crcByte b ∨ i = .lrcByte b) := by
    rcases hi with e | e | e | e | e
    · exact .inr (.inl e)
    · exact .inl (.inl e)
    · exact .inr (.inr (.inl e))
    · exact .inl (.inr e)
    · exact .inr (.inr (.inr e))
  have hframe : t.regs = { s.regs with crc := t.regs.crc, lrcsum := t.regs.lrcsum, status := t.regs.status } ∧
      (∀ a, t.byteAt a = s.byteAt a) ∧ keepsPins s t := by
    obtain ⟨_, _, _, _, _, _, rfl, -⟩ := exec_small_frame h (by rintro rfl; simp at hi) (by rintro rfl; simp at hi)
      (by rintro rfl; simp at hi)
    exact ⟨rfl, fun _ => rfl, rfl, rfl, rfl⟩
  obtain ⟨hregs, hbytes, hpins⟩ := hframe
  refine ⟨hregs, fun hc hl => ?_, hbytes, hpins, fun hcrc hsum hlen hdraws hrx => ?_⟩
  · exact exec_streaming_status (hkind.resolve_left (not_or.mpr ⟨hc, hl⟩)) h
  · have ha : AgreeOnChecksum s s' := ⟨hcrc, hsum, hlen, hdraws, hrx⟩
    rcases hkind with hbuf | hstr
    · obtain ⟨h1, h2, h3, hreport⟩ := ha.exec_buf hbuf h h'
      exact ⟨h1, h2, h3, fun _ => hreport⟩
    · obtain ⟨h1, h2, h3⟩ := ha.exec_streaming hstr h h'
      refine ⟨h1, h2, h3, fun hbuf => ?_⟩
      rcases hstr with rfl | rfl | ⟨b, rfl | rfl⟩ <;> simp at hbuf

end Sys2Proof.Machine
end

section
/-! The data swap and the parsers of the three bindings, each with the lemmas that later proofs read its checks from (spec 41
R143, R150 to R153). -/

namespace Sys2Proof.Machine

/-! ### The data swap -/

@[simp] theorem swap16_swap16 (s : List Byte) : swap16 (swap16 s) = s := by
  induction s using swap16.induct with
  | case1 a b s ih => rw [swap16, swap16, ih]
  | case2 a => rfl
  | case3 => rfl

/-- The two bytes of word `i` change places (R143). -/
theorem swap16_getElem?_word (s : List Byte) {i : Nat} (h : 2 * i + 1 < s.length) :
    (swap16 s)[2 * i]? = s[2 * i + 1]? ∧ (swap16 s)[2 * i + 1]? = s[2 * i]? := by
  induction s using swap16.induct generalizing i with
  | case1 a b s ih =>
    cases i with
    | zero => exact ⟨rfl, rfl⟩
    | succ i => exact ih (by simp only [List.length_cons] at h; omega)
  | case2 a => simp at h
  | case3 => simp at h

/-- The last byte of an odd number stays (R143). -/
theorem swap16_getElem?_last (s : List Byte) (h : s.length % 2 = 1) : (swap16 s)[s.length - 1]? = s[s.length - 1]? := by
  induction s using swap16.induct with
  | case1 a b s ih =>
    have hs : s.length % 2 = 1 := by simp only [List.length_cons] at h; omega
    obtain ⟨n, hn⟩ : ∃ n, s.length = n + 1 := ⟨s.length - 1, by omega⟩
    simpa [swap16, hn] using ih hs
  | case2 a => rfl
  | case3 => rfl

/-- Settles O35: the words, the trailing byte, and the involution, each by the recursion of `swap16`. -/
theorem swapExchangesBytesOfWords : Obligations.SwapExchangesBytesOfWords := fun s =>
  ⟨swap16_length s, swap16_swap16 s, fun _ => swap16_getElem?_word s, swap16_getElem?_last s, rfl, rfl⟩

/-! ### Parts of a frame -/

/-- The slice of the bytes that stand between `p` and `t`. -/
theorem slice_between (p m t : List Byte) {i j : Nat} (hi : i = p.length) (hj : j = p.length + m.length) :
    slice (p ++ m ++ t) i j = m := by
  subst hi hj
  simp [slice]

/-- A byte behind the bytes of `p`. -/
theorem at8_append (p t : List Byte) {i j : Nat} (h : j = p.length + i) : at8 (p ++ t) j = at8 t i := by
  rw [at8, at8, List.getD_append_right _ _ _ _ (by omega), h, Nat.add_sub_cancel_left]

/-! ### RTU -/

@[simp] theorem ofBytes_toNat (hi lo : Byte) : (ofBytes hi lo).toNat = hi.toNat * 256 + lo.toNat := by
  have := hi.isLt
  have := lo.isLt
  exact Nat.mod_eq_of_lt (by omega)

@[simp] theorem le16_ofBytes (hi lo : Byte) : le16 (ofBytes hi lo) = [lo, hi] := by
  have := lo.isLt
  have hlo : lo8 (ofBytes hi lo) = lo := by
    apply BitVec.eq_of_toNat_eq
    simp [lo8]; omega
  have hhi : hi8 (ofBytes hi lo) = hi := by
    apply BitVec.eq_of_toNat_eq
    simp [hi8]; omega
  rw [le16, hlo, hhi]

@[simp] theorem ofBytes_hi8_lo8 (v : Half) : ofBytes (hi8 v) (lo8 v) = v := by
  apply BitVec.eq_of_toNat_eq
  have := v.isLt
  simp [hi8, lo8]; omega

/-- Two bytes after a sequence are its CRC, low byte first, exactly where the CRC of the whole is 0 (R127, R151): no other CRC
register meets 0 over the same two bytes. -/
theorem crc16_append_eq_zero_iff (s : List Byte) (lo hi : Byte) : crc16 (s ++ [lo, hi]) = 0 ↔ crc16 s = ofBytes hi lo := by
  have hself : crcFold (ofBytes hi lo) [lo, hi] = 0 := by
    rw [← le16_ofBytes hi lo]
    exact crcFold_le16_self _
  rw [crc16, crcFold_append]
  constructor
  · intro h
    exact crcFold_injective [lo, hi] (h.trans hself.symm)
  · intro h
    rw [← hself, ← h, crc16]

/-- The RTU check of a frame in its parts (R151). -/
theorem parseRtu_parts (u f lo hi : Byte) (d : List Byte) : parseRtu ([u, f] ++ d ++ [lo, hi]) =
    if crc16 ([u, f] ++ d) = ofBytes hi lo then .ok { unit := u, fc := f, data := d, tid := 0x0000 } else .error .frmCrc := by
  have hlen : ([u, f] ++ d ++ [lo, hi]).length = d.length + 4 := by simp
  have hbody : slice ([u, f] ++ d ++ [lo, hi]) 0 (d.length + 2) = [u, f] ++ d :=
    slice_between [] ([u, f] ++ d) [lo, hi] rfl (by simp)
  have hdata : slice ([u, f] ++ d ++ [lo, hi]) 2 (d.length + 2) = d :=
    slice_between [u, f] d [lo, hi] rfl (by simp; omega)
  have hlo : at8 ([u, f] ++ d ++ [lo, hi]) (d.length + 2) = lo := at8_append ([u, f] ++ d) [lo, hi] (i := 0) (by simp)
  have hhi : at8 ([u, f] ++ d ++ [lo, hi]) (d.length + 3) = hi := at8_append ([u, f] ++ d) [lo, hi] (i := 1) (by simp)
  rw [parseRtu, hlen, show d.length + 4 - 2 = d.length + 2 from rfl, show d.length + 4 - 1 = d.length + 3 from rfl,
    hbody, hdata, hlo, hhi, ite_not]
  rfl

theorem eq_ofBytes_iff (v : Half) (lo hi : Byte) : v = ofBytes hi lo ↔ v.toNat = lo.toNat + 256 * hi.toNat := by
  rw [← BitVec.toNat_inj, ofBytes_toNat, Nat.add_comm, Nat.mul_comm]

/-- Settles O38: the check on the parts, and the residue. -/
theorem rtuParsingChecksTheCrc : Obligations.RtuParsingChecksTheCrc := by
  intro u f lo hi d
  simp only [← eq_ofBytes_iff]
  exact ⟨parseRtu_parts u f lo hi d, (crc16_append_eq_zero_iff _ lo hi).symm⟩

/-! ### ASCII -/

/-- The frame starts with a colon and ends with CR and LF (R152). -/
def AsciiDelimited (r : List Byte) : Prop :=
  at8 r 0 = 0x3A ∧ at8 r (r.length - 2) = 0x0D ∧ at8 r (r.length - 1) = 0x0A

/-- The characters between the delimiters. -/
def asciiBody (r : List Byte) : List Byte := slice r 1 (r.length - 2)

theorem parseAscii_not_delimited {r : List Byte} (h : ¬AsciiDelimited r) : parseAscii r = .error .frmDelim := by
  unfold parseAscii
  by_cases h0 : at8 r 0 = 0x3A
  · have hend : at8 r (r.length - 2) ≠ 0x0D ∨ at8 r (r.length - 1) ≠ 0x0A :=
      not_and_or.mp fun hend => h ⟨h0, hend⟩
    rw [if_neg (not_not.mpr h0), if_pos hend]
  · rw [if_pos h0]

theorem parseAscii_not_hex {r : List Byte} (hd : AsciiDelimited r) (h : unhexU (asciiBody r) = none) :
    parseAscii r = .error .frmHex := by
  obtain ⟨h0, h1, h2⟩ := hd
  rw [asciiBody] at h
  simp [parseAscii, h0, h1, h2, h]

/-- The sum check of a frame whose delimiters and hex form are right (R152). -/
theorem parseAscii_hex {r bs : List Byte} (hd : AsciiDelimited r) (h : unhexU (asciiBody r) = some bs) :
    parseAscii r = if byteSum bs % 256 = 0
      then .ok { unit := at8 bs 0, fc := at8 bs 1, data := slice bs 2 (bs.length - 1), tid := 0x0000 }
      else .error .frmLrc := by
  obtain ⟨h0, h1, h2⟩ := hd
  rw [asciiBody] at h
  simp [parseAscii, h0, h1, h2, h]

/-- The delimiters and the characters of a frame in its parts. -/
theorem asciiDelimited_parts (c0 c1 c2 : Byte) (h : List Byte) :
    (AsciiDelimited ([c0] ++ h ++ [c1, c2]) ↔ c0 = 0x3A ∧ c1 = 0x0D ∧ c2 = 0x0A) ∧ asciiBody ([c0] ++ h ++ [c1, c2]) = h := by
  have hlen : ([c0] ++ h ++ [c1, c2]).length = h.length + 3 := by simp
  have hcr : at8 ([c0] ++ h ++ [c1, c2]) (h.length + 1) = c1 := at8_append ([c0] ++ h) [c1, c2] (i := 0) (by simp)
  have hlf : at8 ([c0] ++ h ++ [c1, c2]) (h.length + 2) = c2 := at8_append ([c0] ++ h) [c1, c2] (i := 1) (by simp)
  have hbody : slice ([c0] ++ h ++ [c1, c2]) 1 (h.length + 1) = h := slice_between [c0] h [c1, c2] rfl (by simp; omega)
  rw [AsciiDelimited, asciiBody, hlen, show h.length + 3 - 2 = h.length + 1 from rfl,
    show h.length + 3 - 1 = h.length + 2 from rfl, hcr, hlf, hbody]
  exact ⟨Iff.rfl, rfl⟩

/-- The LRC check of a frame in its parts (R152). -/
theorem parseAscii_parts {h : List Byte} {u f l : Byte} {d : List Byte} (hh : unhexU h = some ([u, f] ++ d ++ [l])) :
    parseAscii ([0x3A] ++ h ++ [0x0D, 0x0A]) =
      if l = lrc8 ([u, f] ++ d) then .ok { unit := u, fc := f, data := d, tid := 0x0000 } else .error .frmLrc := by
  obtain ⟨hd, hb⟩ := asciiDelimited_parts 0x3A 0x0D 0x0A h
  have hdata : slice ([u, f] ++ d ++ [l]) 2 (([u, f] ++ d ++ [l]).length - 1) = d :=
    slice_between [u, f] d [l] rfl (by simp; omega)
  rw [parseAscii_hex (hd.mpr ⟨rfl, rfl, rfl⟩) (hb.symm ▸ hh), hdata]
  simp only [byteSum_append_lrc]
  rfl

/-- Settles O39: the checks on the parts, in their order. -/
theorem asciiParsingChecksInOrder : Obligations.AsciiParsingChecksInOrder := by
  intro c0 c1 c2 h _
  obtain ⟨hd, hb⟩ := asciiDelimited_parts c0 c1 c2 h
  refine ⟨fun hno => parseAscii_not_delimited (hd.not.mpr hno), fun h0 h1 h2 hh => ?_, fun u f l d h0 h1 h2 hh => ?_⟩
  · exact parseAscii_not_hex (hd.mpr ⟨h0, h1, h2⟩) (hb.symm ▸ hh)
  · subst h0 h1 h2
    exact parseAscii_parts hh

/-! ### TCP -/

/-- Settles O40: the two header fields as numbers, and the number of bytes after them. -/
theorem tcpParsingChecksTheHeader : Obligations.TcpParsingChecksTheHeader := by
  intro t1 t0 p1 p0 l1 l0 u f d _
  have hproto : ofBytes p1 p0 ≠ 0x0000 ↔ p1.toNat * 256 + p0.toNat ≠ 0 := by
    rw [Ne, ← BitVec.toNat_inj, ofBytes_toNat]
    rfl
  have hdata : slice ([t1, t0, p1, p0, l1, l0, u, f] ++ d) 8 ([t1, t0, p1, p0, l1, l0, u, f] ++ d).length = d := by
    simp [slice]
  calc parseAdu .tcp ([t1, t0, p1, p0, l1, l0, u, f] ++ d)
      = if ofBytes p1 p0 ≠ 0x0000 then .error .frmProto
        else if (ofBytes l1 l0).toNat ≠ d.length + 2 then .error .frmLength
        else .ok { unit := u, fc := f, data := d, tid := ofBytes t1 t0 } := by
        rw [parseAdu, parseTcp, hdata]
        rfl
    _ = _ := by simp only [hproto, ofBytes_toNat]; rfl

end Sys2Proof.Machine
end

section
/-! ENCODE and DECODE by their outcomes: the errors of ENCODE, the failures of DECODE and its two kinds of reply (spec 41 R141,
R148, R160 to R166). -/

namespace Sys2Proof.Machine

theorem exists_bindingOf {c : Ctrl} (h : c.binding ≠ 3) : ∃ b, c.bindingOf = some b :=
  Option.ne_none_iff_exists'.mp fun hn => h ((Ctrl.bindingOf_eq_none c).mp hn)

/-! ### ENCODE -/

/-- All that an ENCODE that ends in an error writes (R148). -/
theorem State.encodeFail_eq (s : State) {c : Code} (h : 2 ≤ c.num.toNat) : s.encodeFail c = { s with regs := { s.regs with
    status := { s.regs.status with result := c.num, done := true, err := true, reqv := false, rspv := false } } } :=
  State.finish_error _ h

theorem exec_encode_reserved {s : State} (h : s.regs.ctrl.binding = 3) : exec .encode s = .next (s.encodeFail .errConfig) := by
  simp only [exec, execEncode, (Ctrl.bindingOf_eq_none _).mpr h]

theorem exec_encode_long {s : State} {b : Binding} (hb : s.regs.ctrl.bindingOf = some b) (hl : 252 < s.regs.txlen.toNat) :
    exec .encode s = .next (s.encodeFail .errTxlen) := by
  simp only [exec, execEncode, hb]
  exact if_pos hl

/-- Settles O41: BINDING 3, then a TXLEN out of range, and else the success of O42 to O44. -/
theorem encodeErrorsInOrder : Obligations.EncodeErrorsInOrder := by
  intro s
  refine ⟨fun h3 => ?_, fun h3 hl => ?_, fun h3 hl => ?_⟩
  · rw [exec_encode_reserved h3, s.encodeFail_eq (by decide)]
    rfl
  · obtain ⟨b, hb⟩ := exists_bindingOf h3
    rw [exec_encode_long hb hl, s.encodeFail_eq (by decide)]
    rfl
  · obtain ⟨b, hb⟩ := exists_bindingOf h3
    obtain ⟨t, he, -, -, -, -, hregs⟩ := exec_encode_success hb hl
    exact ⟨t, he, by rw [hregs]⟩

/-! ### DECODE up to the frame -/

section
variable {s : State} {b : Binding}

theorem exec_decode_reserved (h : s.regs.ctrl.binding = 3) : exec .decode s = .next (s.decodeFail .errConfig) := by
  simp only [exec, execDecode, (Ctrl.bindingOf_eq_none _).mpr h]

theorem exec_decode_short (hb : s.regs.ctrl.bindingOf = some b) (h : s.regs.rxlen.toNat < minAdu b) :
    exec .decode s = .next (s.decodeFail .frmTruncated) := by
  simp only [exec, execDecode, hb]
  exact if_pos h

theorem exec_decode_long (hb : s.regs.ctrl.bindingOf = some b) (h : maxAdu b < s.regs.rxlen.toNat) :
    exec .decode s = .next (s.decodeFail .frmTooLong) := by
  have hmin : ¬s.regs.rxlen.toNat < minAdu b := by
    have : minAdu b ≤ maxAdu b := by cases b <;> decide
    omega
  simp only [exec, execDecode, hb, if_neg hmin]
  exact if_pos h

/-- With RXLEN in range DECODE looks at the frame (R166). -/
theorem exec_decode_inRange (hb : s.regs.ctrl.bindingOf = some b) (hmin : minAdu b ≤ s.regs.rxlen.toNat)
    (hmax : s.regs.rxlen.toNat ≤ maxAdu b) : exec .decode s = .next (decodeDone s b) := by
  simp only [exec, execDecode, hb, if_neg (Nat.not_lt.mpr hmin), if_neg (Nat.not_lt.mpr hmax),
    State.operandBytes_eq_bufferBytes]
  rfl

end

/-! ### DECODE of a frame -/

section
variable (s : State) {b : Binding} {r : List Byte} {fr : Frame}

theorem State.decodeFrame_error {c : Code} (h : parseAdu b r = .error c) : s.decodeFrame b r = s.decodeFail c := by
  simp only [State.decodeFrame, h]

theorem State.decodeFrame_excLen (h : parseAdu b r = .ok fr) (hx : isException fr.fc = true) (hl : fr.data.length ≠ 1) :
    s.decodeFrame b r = s.decodeFail .frmExcLen := by
  simp only [State.decodeFrame, h, if_pos hx]
  split
  · next code hd => exact absurd (congrArg List.length hd) hl
  · rfl

theorem State.decodeFrame_exception {code : Byte} (h : parseAdu b r = .ok fr) (hx : isException fr.fc = true)
    (hd : fr.data = [code]) : s.decodeFrame b r = s.latchException fr code := by
  simp only [State.decodeFrame, h, if_pos hx, hd]

theorem State.decodeFrame_reply (h : parseAdu b r = .ok fr) (hx : isException fr.fc = false) :
    s.decodeFrame b r = s.latchReply fr (swapIf s.regs.ctrl.refin fr.data) := by
  simp only [State.decodeFrame, h, hx]
  rfl

end

/-! ### The failures of DECODE -/

/-- All that a DECODE that fails after it read `n` bytes writes (R165). -/
theorem State.spend_decodeFail_eq (s : State) (n : Nat) {c : Code} (h : 2 ≤ c.num.toNat) :
    (s.spend n).decodeFail c = { s with
      draws := s.draws + n
      regs := { s.regs with
        status := { s.regs.status with result := c.num, done := true, err := true, rspv := false, exc := false } } } :=
  State.finish_error _ h

/-- The failures of each binding's parser (R151 to R153). -/
theorem parseAdu_error_cases {b : Binding} {r : List Byte} {c : Code} (h : parseAdu b r = .error c) :
    (b = .rtu ∧ c = .frmCrc) ∨ (b = .ascii ∧ c = .frmDelim) ∨ (b = .ascii ∧ c = .frmHex) ∨ (b = .ascii ∧ c = .frmLrc) ∨
      (b = .tcp ∧ c = .frmProto) ∨ (b = .tcp ∧ c = .frmLength) := by
  cases b with
  | rtu =>
    simp only [parseAdu, parseRtu] at h
    split at h <;> cases h
    exact .inl ⟨rfl, rfl⟩
  | ascii =>
    by_cases hd : AsciiDelimited r
    · cases hh : unhexU (asciiBody r) with
      | none =>
        rw [parseAdu, parseAscii_not_hex hd hh] at h
        cases h
        simp
      | some bs =>
        rw [parseAdu, parseAscii_hex hd hh] at h
        split at h <;> cases h
        simp
    · rw [parseAdu, parseAscii_not_delimited hd] at h
      cases h
      simp
  | tcp =>
    simp only [parseAdu, parseTcp] at h
    split at h
    · cases h; simp
    · split at h <;> cases h
      simp

/-- Settles O45: the checks before the frame, the failures of the parsers, and the length of an exception reply. -/
theorem decodeFailuresInOrder : Obligations.DecodeFailuresInOrder := by
  intro s len fails
  have fails_of {c : Code} {n : Nat} (h : exec .decode s = .next ((s.spend n).decodeFail c)) (hc : 2 ≤ c.num.toNat) :
      fails c.num n := h.trans (congrArg _ (s.spend_decodeFail_eq n hc))
  have config (h3 : s.regs.ctrl.binding = 3) : fails 0x02 0 :=
    fails_of (c := .errConfig) (n := 0) (exec_decode_reserved h3) (by decide)
  refine ⟨config, fun b hb => ⟨fun h => ?_, fun h => ?_, fun hmin hmax => ?_⟩⟩
  · exact fails_of (c := .frmTruncated) (n := 0) (exec_decode_short hb h) (by decide)
  · exact fails_of (c := .frmTooLong) (n := 0) (exec_decode_long hb h) (by decide)
  have hrange := exec_decode_inRange hb hmin hmax
  refine ⟨fun c hc => ?_, fun fr hfr hx hl => ?_⟩
  · have hfails : fails c.num len :=
      fails_of (hrange.trans (congrArg _ ((s.spend len).decodeFrame_error hc))) (parseAdu_error_sets_err hc)
    rcases parseAdu_error_cases hc with ⟨rfl, rfl⟩ | ⟨rfl, rfl⟩ | ⟨rfl, rfl⟩ | ⟨rfl, rfl⟩ | ⟨rfl, rfl⟩ | ⟨rfl, rfl⟩
    · exact .inl ⟨rfl, rfl, hfails⟩
    · exact .inr (.inl ⟨rfl, rfl, hfails⟩)
    · exact .inr (.inr (.inl ⟨rfl, rfl, hfails⟩))
    · exact .inr (.inr (.inr (.inl ⟨rfl, rfl, hfails⟩)))
    · exact .inr (.inr (.inr (.inr (.inl ⟨rfl, rfl, hfails⟩))))
    · exact .inr (.inr (.inr (.inr (.inr ⟨rfl, rfl, hfails⟩))))
  · exact fails_of (hrange.trans (congrArg _ ((s.spend len).decodeFrame_excLen hfr hx hl))) (by decide)

/-! ### The replies that DECODE accepts -/

/-- Settles O46: the reply is latched, and its data field fits RDLEN. -/
theorem decodeLatchesANormalReply : Obligations.DecodeLatchesANormalReply := by
  intro s b fr hb hmin hmax hfr hx d
  have hlen : fr.data.length ≤ 252 := parseAdu_data_length_le hfr (by simpa using hmax)
  have hd : d = swapIf s.regs.ctrl.refin fr.data := rfl
  have hrdlen : (BitVec.ofNat 9 d.length).toNat = fr.data.length := by
    rw [hd, swapIf_length, BitVec.toNat_ofNat, Nat.mod_eq_of_lt (by omega)]
  refine ⟨_, (exec_decode_inRange hb hmin hmax).trans (congrArg _ (State.decodeFrame_reply _ hfr hx)), ⟨rfl, rfl, rfl⟩, rfl,
    storesOnly_storeBytes _ _ _ _ rfl, hrdlen, hlen, ?_⟩
  rw [State.latchReply, State.finish_ok]
  rfl

/-- Settles O47: the exception reply is latched, its function code without bit 7 in EXCREG. -/
theorem decodeLatchesAnExceptionReply : Obligations.DecodeLatchesAnExceptionReply := by
  intro s b fr code hb hmin hmax hfr hx hd
  refine ⟨_, (exec_decode_inRange hb hmin hmax).trans (congrArg _ (State.decodeFrame_exception _ hfr hx hd)),
    ⟨rfl, rfl, rfl⟩, rfl, storesOnly_storeBytes _ _ _ _ rfl, ?_⟩
  simp [State.latchException, State.finish, Status.finish, Code.num, maskFc_eq]

end Sys2Proof.Machine
end

section
/-! VERIFY's checks in their order, and the round trip from ENCODE over RXBUF to DECODE and VERIFY (spec 41 R168, R170 to R173). -/

namespace Sys2Proof.Machine

/-! ### VERIFY -/

theorem maskFc_toNat (f : Byte) : (maskFc f).toNat = f.toNat % 128 := by
  rw [maskFc_eq, BitVec.toNat_ofNat]
  exact Nat.mod_eq_of_lt (by omega)

theorem maskFc_ne_iff (f g : Byte) : maskFc f ≠ g ↔ f.toNat % 128 ≠ g.toNat := by
  rw [Ne, ← BitVec.toNat_inj, maskFc_toNat]

/-- A function code with bit 7 clear is its own masked form (R173). -/
theorem maskFc_of_not_exception {f : Byte} (h : f.getLsbD 7 = false) : maskFc f = f := by
  apply BitVec.eq_of_toNat_eq
  have := f.isLt
  have hbit : f.toNat.testBit 7 = false := h
  rw [Nat.testBit_eq_decide_div_mod_eq, decide_eq_false_iff_not] at hbit
  rw [maskFc_toNat]
  omega

/-- VERIFY of a reserved BINDING (R171). -/
theorem verifyCode_reserved {g : Regs} (h : g.ctrl.binding = 3) : verifyCode g = .errConfig := by
  simp only [verifyCode, (Ctrl.bindingOf_eq_none _).mpr h]

/-- The checks of VERIFY under a binding, in their order, in the words of R170 to R173. -/
theorem verifyCode_eq {g : Regs} (h : g.ctrl.binding ≠ 3) : verifyCode g =
    if g.status.reqv = false ∨ g.status.rspv = false then .corNotReady
    else if g.rsphdr.unit ≠ g.reqcap.unit then .corUnit
    else if g.ctrl.binding = 2 ∧ g.rsphdr.tid ≠ g.reqcap.tid then .corTid
    else if (g.ctrl.binding ≠ 2 ∨ g.ctrl.vfc = true) ∧ g.rsphdr.fc.toNat % 128 ≠ g.reqcap.fc.toNat then .corFc
    else .ok := by
  obtain ⟨b, hb⟩ := exists_bindingOf h
  have htcp : b = .tcp ↔ g.ctrl.binding = 2 := by rw [← Ctrl.bindingOf_eq_tcp, hb, Option.some_inj]
  simp only [verifyCode, hb, ne_eq, htcp, ← maskFc_ne_iff]

/-- Settles O49: each branch of the checks, and the report of its code. -/
theorem verifyReportsTheFirstMismatch : Obligations.VerifyReportsTheFirstMismatch := by
  refine ⟨fun w hw => decode_of_opcode hw, ?_⟩
  intro s g reports
  have report {c : Code} (h : verifyCode g = c) : reports c.num (decide (2 ≤ c.num.toNat)) := by
    rw [← h]
    exact exec_verify s
  refine ⟨fun h3 => report (verifyCode_reserved h3), fun h3 => ?_⟩
  have hcode := verifyCode_eq h3
  refine ⟨fun hv => report (hcode.trans (if_pos hv)), fun hq hr => ?_⟩
  rw [if_neg (by simp [hq, hr])] at hcode
  refine ⟨fun hu => report (hcode.trans (if_pos hu)), fun hu => ?_⟩
  rw [if_neg (not_not.mpr hu)] at hcode
  refine ⟨fun hb ht => report (hcode.trans (if_pos ⟨hb, ht⟩)), fun ht => ?_⟩
  rw [if_neg (by tauto)] at hcode
  refine ⟨fun hf hb => report (hcode.trans (if_pos ⟨hb, hf⟩)), fun hf => report (hcode.trans (if_neg fun ⟨hb, hne⟩ => ?_))⟩
  obtain ⟨h2, hvfc⟩ := hf.resolve_left hne
  simp [h2, hvfc] at hb

/-- R168, R170: a reply whose header is that of the request, with no exception, passes every check. -/
theorem verifyCode_of_same_header {g : Regs} (h3 : g.ctrl.binding ≠ 3) (hq : g.status.reqv = true) (hr : g.status.rspv = true)
    (hh : g.rsphdr = g.reqcap) (hx : g.reqcap.fc.getLsbD 7 = false) : verifyCode g = .ok := by
  have hf : g.reqcap.fc.toNat % 128 = g.reqcap.fc.toNat := by rw [← maskFc_toNat, maskFc_of_not_exception hx]
  simp [verifyCode_eq h3, hq, hr, hh, hf]

/-! ### An assembled ADU parses to what it was assembled from -/

/-- R168: every binding's parser reads back the ADU that ENCODE assembles. -/
theorem parseAdu_aduOf (b : Binding) (t : Half) (u f : Byte) {d : List Byte} (h : d.length ≤ 252) :
    parseAdu b (aduOf b t u f d) = .ok { unit := u, fc := f, data := d, tid := captureTid b t } := by
  cases b with
  | rtu =>
    have hcrc : crc16 ([u, f] ++ d) = ofBytes (hi8 (crc16 ([u, f] ++ d))) (lo8 (crc16 ([u, f] ++ d))) := by simp
    exact (parseRtu_parts u f _ _ d).trans (if_pos hcrc)
  | ascii => exact (parseAscii_parts (unhexU_hexU _)).trans (if_pos rfl)
  | tcp =>
    have htid : BitVec.ofNat 16 (t.toNat / 256 % 256 * 256 + t.toNat % 256) = t := by
      apply BitVec.eq_of_toNat_eq
      have := t.isLt
      simp; omega
    have hlen : (d.length + 2) / 256 % 256 * 256 + (d.length + 2) % 256 = d.length + 2 := by omega
    rw [aduOf, tcpAdu_eq t u f h, tcpParsingChecksTheHeader _ _ _ _ _ _ _ _ d h]
    simp [hlen, htid, captureTid]

/-- The two swaps of a data field cancel where their flags agree, and else leave one swap (R143, R168). -/
theorem swapIf_swapIf (p q : Bool) (d : List Byte) : swapIf p (swapIf q d) = if p = q then d else swap16 d := by
  cases p <;> cases q <;> simp [swapIf, swapData, Config.swapMode]

/-- The RXBUF of a state that holds a copy of TXBUF after ENCODE. -/
theorem bufferBytes_of_copy {s t u : State} {adu : List Byte} (hst : storesOnly s t 0x800 adu)
    (hcopy : ∀ k, k < adu.length → u.byteAt (0xC00 + k) = t.byteAt (0x800 + k)) : u.bufferBytes 0xC00 adu.length = adu :=
  State.bufferBytes_eq_of_written fun k hk => (hcopy k hk).trans (hst.at hk)

theorem parseAdu_encodedAdu {s : State} (b : Binding) (hl : s.regs.txlen.toNat ≤ 252) : parseAdu b (encodedAdu s b) = .ok {
    unit := s.regs.unit
    fc := s.regs.fc
    data := swapIf s.regs.ctrl.refout (s.bufferBytes 0x400 s.regs.txlen.toNat)
    tid := captureTid b s.regs.tid } :=
  parseAdu_aduOf b _ _ _ ((encodedData_length s).trans_le hl)

/-- R168: DECODE of a received request latches the header it was framed with, and its data field under both swaps. -/
theorem exec_decode_encodedAdu {s u : State} {b : Binding} (hl : s.regs.txlen.toNat ≤ 252) (hfc : s.regs.fc.getLsbD 7 = false)
    (hb : u.regs.ctrl.bindingOf = some b) (hrx : u.regs.rxlen.toNat = (encodedAdu s b).length)
    (hbytes : u.bufferBytes 0xC00 (encodedAdu s b).length = encodedAdu s b) :
    ∃ v, exec .decode u = .next v ∧ v.regs.rdlen.toNat = s.regs.txlen.toNat ∧
      storesOnly u v 0x500
        (swapIf u.regs.ctrl.refin (swapIf s.regs.ctrl.refout (s.bufferBytes 0x400 s.regs.txlen.toNat))) ∧
      v.regs = { u.regs with
        rsphdr := { tid := captureTid b s.regs.tid, fc := s.regs.fc, unit := s.regs.unit }
        rdlen := v.regs.rdlen
        excreg := { fc := 0, code := 0 }
        status := { u.regs.status with result := 0x00, done := true, rspv := true, exc := false } } := by
  have hd := encodedData_length s
  have hmin : minAdu b ≤ u.regs.rxlen.toNat := hrx ▸ minAdu_le_aduOf_length b _ _ _ _
  have hmax : u.regs.rxlen.toNat ≤ maxAdu b := hrx ▸ aduOf_length_le_maxAdu b _ _ _ (hd.trans_le hl)
  have hparse := (congrArg (parseAdu b) (hrx ▸ hbytes)).trans (parseAdu_encodedAdu b hl)
  obtain ⟨v, hv, -, -, hst, hrdlen, -, hregs⟩ := decodeLatchesANormalReply u b _ hb hmin hmax hparse hfc
  exact ⟨v, hv, hrdlen.trans hd, hst, hregs⟩

/-- Settles O59: DECODE latches the header and the data of the request, and VERIFY finds the two headers equal. -/
theorem encodeDecodeVerifyRoundTrip : Obligations.EncodeDecodeVerifyRoundTrip := by
  intro s t u h3 hl hfc he hbind hrefout hcap hreqv hrx hcopy d
  obtain ⟨b, hb⟩ := exists_bindingOf h3
  obtain ⟨t', he', -, -, hst, hadulen, htregs⟩ := exec_encode_success hb hl
  cases he.symm.trans he'
  have hub : u.regs.ctrl.bindingOf = some b := by rw [← hb, Ctrl.bindingOf, Ctrl.bindingOf, hbind]
  obtain ⟨v, hv, hrdlen, hvst, hvregs⟩ := exec_decode_encodedAdu hl hfc hub (by rw [hrx, hadulen])
    (bufferBytes_of_copy hst (hadulen ▸ hcopy))
  have hreqcap : t.regs.reqcap = { tid := captureTid b s.regs.tid, fc := s.regs.fc, unit := s.regs.unit } := by rw [htregs]
  have hverify : verifyCode v.regs = .ok := by
    rw [hvregs]
    refine verifyCode_of_same_header (hbind ▸ h3) hreqv rfl (hreqcap.symm.trans hcap.symm) ?_
    rw [hcap, hreqcap]
    exact hfc
  have hbyte (k : Nat) (hk : k < s.regs.txlen.toNat) :
      v.byteAt (0x500 + k) = (if u.regs.ctrl.refin = u.regs.ctrl.refout then d else swap16 d)[k]? := by
    rw [hrefout, ← swapIf_swapIf]
    exact hvst.at (by rw [swapIf_length, encodedData_length]; exact hk)
  refine ⟨v, _, hv, exec_verify v, by rw [hvregs], by rw [hvregs], by rw [hvregs], fun _ => by rw [hvregs, hreqcap],
    hrdlen, fun hr k hk => ?_, fun hr k hk => ?_, ?_⟩
  · rw [hbyte k hk, if_pos hr]
  · rw [hbyte k hk, if_neg hr]
  · rw [hverify]
    rfl

end Sys2Proof.Machine
end

section
/-! Errors in one byte of a received frame: the CRC sees every change, the ASCII form sees every change of a delimiter, and the LRC
every change of a hex character that still is one (spec 41 R167). -/

namespace Sys2Proof.Machine

/-! ### One byte of a list changed -/

theorem at8_set_same {r : List Byte} {i : Nat} (b : Byte) (h : i < r.length) : at8 (r.set i b) i = b := by
  simp [at8, h]

theorem at8_set_ne (r : List Byte) {i j : Nat} (b : Byte) (h : i ≠ j) : at8 (r.set i b) j = at8 r j := by
  simp [at8, List.getD_eq_getElem?_getD, List.getElem?_set_ne h]

theorem at8_eq_getElem {r : List Byte} {i : Nat} (h : i < r.length) : at8 r i = r[i] := by
  simp [at8, h]

/-! ### The CRC -/

theorem crcStep_injective (c : Half) {a b : Byte} (h : crcStep c a = crcStep c b) : a = b := by
  have hx : crcStep (c ^^^ c) (a ^^^ b) = 0 := by
    rw [crcStep_xor, h]
    exact BitVec.xor_self
  have hz : (a ^^^ b).setWidth 16 = (0 : Half) := by
    have := crcBits_eq_zero hx
    rwa [BitVec.xor_self, BitVec.zero_xor] at this
  have hab : a ^^^ b = 0 := by
    have hmod := congrArg BitVec.toNat hz
    have := (a ^^^ b).isLt
    rw [BitVec.toNat_setWidth, Nat.mod_eq_of_lt (by omega)] at hmod
    exact BitVec.eq_of_toNat_eq hmod
  exact BitVec.xor_eq_zero_iff.mp hab

/-- R127, R167: a changed byte changes the CRC. -/
theorem crc16_set_ne {r : List Byte} {i : Nat} {b : Byte} (hi : i < r.length) (hb : at8 r i ≠ b) :
    crc16 (r.set i b) ≠ crc16 r := by
  have hr : r = r.take i ++ r[i] :: r.drop (i + 1) := by simp
  intro h
  rw [List.set_eq_take_append_cons_drop, if_pos hi] at h
  conv_rhs at h => rw [hr]
  rw [crc16, crc16, crcFold_append, crcFold_append] at h
  refine hb ?_
  rw [at8_eq_getElem hi]
  exact (crcStep_injective _ (crcFold_injective _ h)).symm

/-- An RTU frame is its first two bytes, its data and its last two. -/
theorem exists_rtu_parts {r : List Byte} (h : 4 ≤ r.length) : ∃ u f d lo hi, r = [u, f] ++ d ++ [lo, hi] := by
  match r, h with
  | u :: f :: t, h =>
    have ht : (t.drop (t.length - 2)).length = 2 := by simp at h ⊢; omega
    obtain ⟨lo, hi, e⟩ := List.length_eq_two.mp ht
    refine ⟨u, f, t.take (t.length - 2), lo, hi, ?_⟩
    rw [← e]
    simp

/-- RTU parsing accepts a frame exactly where the residue is 0 (R151). -/
theorem parseRtu_eq_error_iff {r : List Byte} (h : 4 ≤ r.length) : parseRtu r = .error .frmCrc ↔ crc16 r ≠ 0 := by
  obtain ⟨u, f, d, lo, hi, rfl⟩ := exists_rtu_parts h
  rw [parseRtu_parts, Ne, crc16_append_eq_zero_iff]
  split
  · next h => simp only [h, not_true, reduceCtorEq]
  · next h => simp only [h, not_false_eq_true]

/-- R167: one changed byte of an accepted RTU frame fails the CRC. -/
theorem parseRtu_set {r : List Byte} {fr : Frame} {i : Nat} {b : Byte} (hr : 4 ≤ r.length) (h : parseRtu r = .ok fr)
    (hi : i < r.length) (hb : at8 r i ≠ b) : parseRtu (r.set i b) = .error .frmCrc := by
  have hzero : crc16 r = 0 := by
    by_contra hne
    rw [(parseRtu_eq_error_iff hr).mpr hne] at h
    cases h
  rw [parseRtu_eq_error_iff (by simpa using hr), ← hzero]
  exact crc16_set_ne hi hb

/-! ### Hex characters and the LRC -/

/-- Two characters with values differ in their values (R95). -/
theorem hexValue_ne {c d : Byte} {m n : Nat} (hc : hexValue c = some m) (hd : hexValue d = some n) (h : c ≠ d) : m ≠ n := by
  rintro rfl
  exact h ((hexDigit_of_hexValue hc).2.symm.trans (hexDigit_of_hexValue hd).2)

/-- A changed hex character changes one nibble of one byte, and so the sum modulo 256. -/
theorem byteSum_unhexU_set {cs bs bs' : List Byte} {i : Nat} {c : Byte} (h : unhexU cs = some bs)
    (h' : unhexU (cs.set i c) = some bs') (hi : i < cs.length) (hc : cs[i]? ≠ some c) : byteSum bs' % 256 ≠ byteSum bs % 256 := by
  induction cs using List.twoStepInduction generalizing i bs bs' with
  | nil => simp at hi
  | singleton a => cases h
  | cons_cons a b cs ih _ =>
    obtain ⟨x, y, t, ha, hb, ht, rfl⟩ := unhexU_cons_cons_eq_some h
    have hx := (hexDigit_of_hexValue ha).1
    have hy := (hexDigit_of_hexValue hb).1
    match i with
    | 0 =>
      obtain ⟨x', y', t', ha', hb', ht', rfl⟩ := unhexU_cons_cons_eq_some h'
      cases hb.symm.trans hb'
      cases ht.symm.trans ht'
      have hx' := (hexDigit_of_hexValue ha').1
      have hne : x ≠ x' := hexValue_ne ha ha' fun e => hc (congrArg some e)
      simp only [byteSum_cons, BitVec.toNat_ofNat]
      omega
    | 1 =>
      obtain ⟨x', y', t', ha', hb', ht', rfl⟩ := unhexU_cons_cons_eq_some h'
      cases ha.symm.trans ha'
      cases ht.symm.trans ht'
      have hy' := (hexDigit_of_hexValue hb').1
      have hne : y ≠ y' := hexValue_ne hb hb' fun e => hc (congrArg some e)
      simp only [byteSum_cons, BitVec.toNat_ofNat]
      omega
    | i + 2 =>
      obtain ⟨x', y', t', ha', hb', ht', rfl⟩ := unhexU_cons_cons_eq_some h'
      cases ha.symm.trans ha'
      cases hb.symm.trans hb'
      have hrec := ih ht ht' (by simpa using hi) hc
      simp only [byteSum_cons]
      omega

/-! ### ASCII -/

/-- What ASCII parsing checked of an accepted frame (R152). -/
theorem parseAscii_ok {r : List Byte} {fr : Frame} (h : parseAscii r = .ok fr) :
    AsciiDelimited r ∧ ∃ bs, unhexU (asciiBody r) = some bs ∧ byteSum bs % 256 = 0 := by
  by_cases hd : AsciiDelimited r
  · refine ⟨hd, ?_⟩
    cases hh : unhexU (asciiBody r) with
    | none =>
      rw [parseAscii_not_hex hd hh] at h
      cases h
    | some bs =>
      rw [parseAscii_hex hd hh] at h
      split at h
      · next hs => exact ⟨bs, rfl, hs⟩
      · cases h
  · rw [parseAscii_not_delimited hd] at h
    cases h

/-- R167: a changed delimiter of an accepted ASCII frame fails the delimiters. -/
theorem parseAscii_set_delimiter {r : List Byte} {fr : Frame} {i : Nat} {b : Byte} (h : parseAscii r = .ok fr)
    (hi : i < r.length) (hb : at8 r i ≠ b) (hpos : i = 0 ∨ r.length ≤ i + 2) : parseAscii (r.set i b) = .error .frmDelim := by
  obtain ⟨⟨hcolon, hcr, hlf⟩, -⟩ := parseAscii_ok h
  refine parseAscii_not_delimited fun ⟨hcolon', hcr', hlf'⟩ => hb ?_
  rw [List.length_set] at hcr' hlf'
  rw [← at8_set_same b hi]
  obtain rfl | rfl | rfl : i = 0 ∨ i = r.length - 2 ∨ i = r.length - 1 := by omega
  · rw [hcolon, hcolon']
  · rw [hcr, hcr']
  · rw [hlf, hlf']

theorem asciiDelimited_set {r : List Byte} {i : Nat} (b : Byte) (h : AsciiDelimited r) (h0 : 0 < i) (h2 : i + 2 < r.length) :
    AsciiDelimited (r.set i b) := by
  rw [AsciiDelimited, List.length_set, at8_set_ne _ _ (by omega), at8_set_ne _ _ (by omega), at8_set_ne _ _ (by omega)]
  exact h

theorem asciiBody_set (r : List Byte) {i : Nat} (b : Byte) (h0 : 0 < i) :
    asciiBody (r.set i b) = (asciiBody r).set (i - 1) b := by
  rw [asciiBody, asciiBody, List.length_set, slice, slice, List.drop_set, if_neg (by omega), List.take_set]

/-- R167: a changed character between the delimiters of an accepted ASCII frame fails the hex form or the LRC. -/
theorem parseAscii_set_body {r : List Byte} {fr : Frame} {i : Nat} {b : Byte} (h : parseAscii r = .ok fr) (hb : at8 r i ≠ b)
    (h0 : 0 < i) (h2 : i + 2 < r.length) :
    parseAscii (r.set i b) = .error .frmHex ∨ parseAscii (r.set i b) = .error .frmLrc := by
  obtain ⟨hd, bs, hbs, hsum⟩ := parseAscii_ok h
  have hd' := asciiDelimited_set b hd h0 h2
  cases hh : unhexU (asciiBody (r.set i b)) with
  | none => exact .inl (parseAscii_not_hex hd' hh)
  | some bs' =>
    have hset : unhexU ((asciiBody r).set (i - 1) b) = some bs' := by rw [← asciiBody_set r b h0, hh]
    have hlen : i - 1 < (asciiBody r).length := by simp [asciiBody]; omega
    have hchar : (asciiBody r)[i - 1]? ≠ some b := by
      have hi : 1 + (i - 1) = i := by omega
      rw [at8_eq_getElem (by omega)] at hb
      rw [asciiBody, slice, List.getElem?_take_of_lt (by omega), List.getElem?_drop, hi, List.getElem?_eq_getElem (by omega)]
      simpa using hb
    have hne := byteSum_unhexU_set hbs hset hlen hchar
    exact .inr ((parseAscii_hex hd' hh).trans (if_neg (hsum ▸ hne)))

/-! ### DECODE -/

/-- A DECODE that reports OK or EXCEPTION accepted its frame (R162, R166). -/
theorem exec_decode_accepted {s t : State} (h : exec .decode s = .next t)
    (hr : t.regs.status.result = 0x00 ∨ t.regs.status.result = 0x01) :
    ∃ b fr, s.regs.ctrl.bindingOf = some b ∧ minAdu b ≤ s.regs.rxlen.toNat ∧ s.regs.rxlen.toNat ≤ maxAdu b ∧
      parseAdu b (s.bufferBytes 0xC00 s.regs.rxlen.toNat) = .ok fr := by
  have hlt : t.regs.status.result.toNat < 2 := by rcases hr with e | e <;> rw [e] <;> decide
  have hnot {u : State} {c : Code} (hc : 2 ≤ c.num.toNat) (e : exec .decode s = .next (u.decodeFail c)) : False := by
    cases h.symm.trans e
    exact absurd hlt (Nat.not_lt.mpr hc)
  rcases execDecode_cases s with ⟨-, e⟩ | ⟨b, -, -, e⟩ | ⟨b, -, -, e⟩ | ⟨b, hb, hmin, hmax, e⟩
  · exact (hnot (by decide) e).elim
  · exact (hnot (by decide) e).elim
  · exact (hnot (by decide) e).elim
  · cases hp : parseAdu b (s.bufferBytes 0xC00 s.regs.rxlen.toNat) with
    | ok fr => exact ⟨b, fr, hb, hmin, hmax, hp⟩
    | error c => exact (hnot (parseAdu_error_sets_err hp) (e.trans (congrArg _ (State.decodeFrame_error _ hp)))).elim

/-- R165: a DECODE whose frame fails a check reports that check and clears RSPV. -/
theorem exec_decode_error {s : State} {b : Binding} {c : Code} (hb : s.regs.ctrl.bindingOf = some b)
    (hmin : minAdu b ≤ s.regs.rxlen.toNat) (hmax : s.regs.rxlen.toNat ≤ maxAdu b)
    (h : parseAdu b (s.bufferBytes 0xC00 s.regs.rxlen.toNat) = .error c) :
    ∃ t, exec .decode s = .next t ∧ t.regs.status.rspv = false ∧ t.regs.status.result = c.num :=
  ⟨_, (exec_decode_inRange hb hmin hmax).trans (congrArg _ (State.decodeFrame_error _ h)), rfl, rfl⟩

/-- Where one byte of a written run is another, the run is the run with that byte set. -/
theorem State.bufferBytes_set {s t : State} {base n i : Nat} {b : Byte} (hw : ∀ k, k < n → (s.byteAt (base + k)).isSome = true)
    (hk : ∀ k, k < n → k ≠ i → t.byteAt (base + k) = s.byteAt (base + k)) (hi : t.byteAt (base + i) = some b) :
    t.bufferBytes base n = (s.bufferBytes base n).set i b := by
  refine List.ext_getElem? fun k => ?_
  by_cases hn : k < n
  · by_cases he : k = i
    · subst he
      rw [State.bufferBytes_getElem?_of_written hn hi, List.getElem?_set_self (by simpa using hn)]
    · obtain ⟨x, hx⟩ := Option.isSome_iff_exists.mp (hw k hn)
      rw [List.getElem?_set_ne (Ne.symm he), State.bufferBytes_getElem?_of_written hn hx,
        State.bufferBytes_getElem?_of_written hn ((hk k hn he).trans hx)]
  · rw [List.getElem?_eq_none (by simp; omega), List.getElem?_eq_none (by simp; omega)]

theorem flip_ne (b : Byte) {j : Nat} (h : j < 8) : b ≠ b ^^^ BitVec.ofNat 8 (2 ^ j) := by
  intro e
  have hzero : BitVec.ofNat 8 (2 ^ j) = 0 :=
    (BitVec.xor_right_inj b).mp (e.symm.trans BitVec.xor_zero.symm)
  have hlt : 2 ^ j < 2 ^ 8 := Nat.pow_lt_pow_right (by decide) h
  have hmod := congrArg BitVec.toNat hzero
  rw [BitVec.toNat_ofNat, Nat.mod_eq_of_lt hlt] at hmod
  exact absurd hmod (Nat.two_pow_pos j).ne'

/-- Settles O60: a flipped bit is a changed byte, which the checks of the binding see. -/
theorem singleBitFlipsAreDetected : Obligations.SingleBitFlipsAreDetected := by
  intro s s' t i j hbind hw hex hres hi hj hctrl hrx hkeep hflip
  obtain ⟨b, fr, hb, hmin, hmax, hp⟩ := exec_decode_accepted hex hres
  obtain ⟨x, hx⟩ := Option.isSome_iff_exists.mp (hw i hi)
  have hbytes : s'.bufferBytes 0xC00 s.regs.rxlen.toNat =
      (s.bufferBytes 0xC00 s.regs.rxlen.toNat).set i (x ^^^ BitVec.ofNat 8 (2 ^ j)) :=
    State.bufferBytes_set hw hkeep (by rw [hflip, hx]; rfl)
  have hlen : (s.bufferBytes 0xC00 s.regs.rxlen.toNat).length = s.regs.rxlen.toNat := State.bufferBytes_length ..
  have hne : at8 (s.bufferBytes 0xC00 s.regs.rxlen.toNat) i ≠ x ^^^ BitVec.ofNat 8 (2 ^ j) := by
    have hat : at8 (s.bufferBytes 0xC00 s.regs.rxlen.toNat) i = x := by
      simp [at8, List.getD_eq_getElem?_getD, State.bufferBytes_getElem?_of_written hi hx]
    rw [hat]
    exact flip_ne x hj
  generalize s.bufferBytes 0xC00 s.regs.rxlen.toNat = r at hp hbytes hlen hne
  generalize x ^^^ BitVec.ofNat 8 (2 ^ j) = y at hbytes hne
  have hfails {c : Code} (h : parseAdu b (r.set i y) = .error c) :
      ∃ t', exec .decode s' = .next t' ∧ t'.regs.status.rspv = false ∧ t'.regs.status.result = c.num :=
    exec_decode_error (hctrl ▸ hb) (hrx ▸ hmin) (hrx ▸ hmax) (by rw [hrx, hbytes]; exact h)
  rcases hbind with h0 | h1
  · cases hb.symm.trans ((Ctrl.bindingOf_eq_rtu _).mpr h0)
    obtain ⟨t', he, hv, hr⟩ := hfails (parseRtu_set (hlen.symm ▸ hmin) hp (hlen.symm ▸ hi) hne)
    exact ⟨t', he, hv, fun _ => hr, by simp [h0], by simp [h0]⟩
  · cases hb.symm.trans ((Ctrl.bindingOf_eq_ascii _).mpr h1)
    by_cases hpos : i = 0 ∨ s.regs.rxlen.toNat ≤ i + 2
    · obtain ⟨t', he, hv, hr⟩ := hfails (parseAscii_set_delimiter hp (hlen.symm ▸ hi) hne (hlen.symm ▸ hpos))
      exact ⟨t', he, hv, by simp [h1], fun _ _ => hr, by omega⟩
    · obtain ⟨c, hc, hcode⟩ : ∃ c, parseAdu .ascii (r.set i y) = .error c ∧ (c.num = 0x13 ∨ c.num = 0x15) :=
        (parseAscii_set_body hp hne (by omega) (by omega)).elim (fun h => ⟨_, h, .inr rfl⟩) (fun h => ⟨_, h, .inl rfl⟩)
      obtain ⟨t', he, hv, hr⟩ := hfails hc
      exact ⟨t', he, hv, by simp [h1], fun _ h => absurd h hpos, fun _ _ _ => hr ▸ hcode⟩

end Sys2Proof.Machine
end

section
/-! The control commands and the reserved opcodes, and the sticky flags: what a command does whatever DONE and ERR hold (spec 42
R200 to R203). -/

namespace Sys2Proof.Machine

/-! ### NOP and SRESET -/

/-- NOP changes nothing (R200). -/
theorem exec_nop (s : State) : exec .nop s = .next s := rfl

/-- SRESET resets the registers and changes nothing else (R201). -/
theorem exec_sreset (s : State) : exec .sreset s = .next s.resetRegs := rfl

/-! ### Commands from other values of DONE and ERR -/

/-- The state with other values in DONE and ERR. -/
def State.withFlags (s : State) (d e : Bool) : State :=
  { s with regs := { s.regs with status := { s.regs.status with done := d, err := e } } }

/-- DONE is set, ERR is set by a code of 0x02 or more, and nothing else depends on what they held (R27). -/
theorem State.finish_withFlags (s : State) (c : Code) (d e : Bool) :
    (s.withFlags d e).finish c = (s.finish c).withFlags (d || true) (e || decide (2 ≤ c.num.toNat)) := by
  simp [State.withFlags, State.finish, Status.finish]

/-- Whatever DONE and ERR hold, the command leaves them alone and makes the same other changes. -/
def KeepsFlags (i : Instr) (s : State) : Prop :=
  ∃ u : State, ∀ d e, exec i (s.withFlags d e) = .next (u.withFlags d e)

/-- Whatever DONE and ERR hold, the command makes the same other changes and then reports the same code. -/
def FinishesAlike (i : Instr) (s : State) : Prop :=
  ∃ (u : State) (c : Code), ∀ d e, exec i (s.withFlags d e) = .next ((u.withFlags d e).finish c)

section
variable {i : Instr} {s u : State} {c : Code}

/-- The first hypothesis, the run from the flags that `s` has, only names the state for the second. -/
theorem KeepsFlags.intro (_ : exec i s = .next u) (h : ∀ d e, exec i (s.withFlags d e) = .next (u.withFlags d e)) :
    KeepsFlags i s := ⟨u, h⟩

/-- The first hypothesis, the run from the flags that `s` has, only names the state and the code for the second. -/
theorem FinishesAlike.intro (_ : exec i s = .next (u.finish c))
    (h : ∀ d e, exec i (s.withFlags d e) = .next ((u.withFlags d e).finish c)) : FinishesAlike i s := ⟨u, c, h⟩

end

variable (s : State)

theorem buf_finishesAlike {i : Instr} (hi : i = .crcBuf ∨ i = .lrcBuf) : FinishesAlike i s := by
  by_cases h : Config.rxbufSize < s.regs.rxlen.toNat
  · rcases hi with rfl | rfl <;> exact .intro (if_pos h) fun _ _ => if_pos h
  · rcases hi with rfl | rfl <;> exact .intro (if_neg h) fun _ _ => if_neg h

/-- With TXLEN in range ENCODE succeeds (R140). -/
theorem exec_encode_inRange {s : State} {b : Binding} (hb : s.regs.ctrl.bindingOf = some b) (hl : s.regs.txlen.toNat ≤ 252) :
    exec .encode s = .next (encodeDone s b) := by
  simp only [exec, execEncode, hb, State.operandBytes_eq_bufferBytes]
  exact if_neg (Nat.not_lt.mpr hl)

theorem encode_finishesAlike : FinishesAlike .encode s := by
  rcases execEncode_cases s with ⟨h3, h⟩ | ⟨b, hb, hl, h⟩ | ⟨b, hb, hl, h⟩
  · exact .intro h fun d e => exec_encode_reserved (s := s.withFlags d e) h3
  · exact .intro h fun d e => exec_encode_long (s := s.withFlags d e) hb hl
  · exact .intro h fun d e => exec_encode_inRange (s := s.withFlags d e) hb hl

theorem decode_finishesAlike : FinishesAlike .decode s := by
  rcases execDecode_cases s with ⟨h3, h⟩ | ⟨b, hb, hl, h⟩ | ⟨b, hb, hl, h⟩ | ⟨b, hb, hmin, hmax, h⟩
  · exact .intro h fun d e => exec_decode_reserved (s := s.withFlags d e) h3
  · exact .intro h fun d e => exec_decode_short (s := s.withFlags d e) hb hl
  · exact .intro h fun d e => exec_decode_long (s := s.withFlags d e) hb hl
  · have hrange (d e : Bool) := exec_decode_inRange (s := s.withFlags d e) hb hmin hmax
    rcases State.decodeFrame_cases (s.spend s.regs.rxlen.toNat) b (s.bufferBytes 0xC00 s.regs.rxlen.toNat) with
      ⟨c, hp, hf⟩ | ⟨fr, hp, hx, hl, hf⟩ | ⟨fr, code, hp, hx, hd, hf⟩ | ⟨fr, hp, hx, hf⟩
    · exact .intro (h.trans (congrArg _ hf)) fun d e => (hrange d e).trans (congrArg _ (State.decodeFrame_error _ hp))
    · exact .intro (h.trans (congrArg _ hf)) fun d e => (hrange d e).trans (congrArg _ (State.decodeFrame_excLen _ hp hx hl))
    · exact .intro (h.trans (congrArg _ hf)) fun d e => (hrange d e).trans (congrArg _ (State.decodeFrame_exception _ hp hx hd))
    · exact .intro (h.trans (congrArg _ hf)) fun d e => (hrange d e).trans (congrArg _ (State.decodeFrame_reply _ hp hx))

/-- A command other than SRESET leaves DONE and ERR alone or ends with `finish`, and neither its code nor anything else it does
depends on them (R203). -/
theorem keepsFlags_or_finishesAlike {i : Instr} (hi : i ≠ .sreset) : KeepsFlags i s ∨ FinishesAlike i s := by
  cases i with
  | nop => exact .inl (.intro (exec_nop s) fun d e => exec_nop (s.withFlags d e))
  | crcInit => exact .inl (.intro (exec_crcInit s) fun d e => exec_crcInit (s.withFlags d e))
  | crcByte b => exact .inl (.intro (exec_crcByte b s) fun d e => exec_crcByte b (s.withFlags d e))
  | lrcInit => exact .inl (.intro (exec_lrcInit s) fun d e => exec_lrcInit (s.withFlags d e))
  | lrcByte b => exact .inl (.intro (exec_lrcByte b s) fun d e => exec_lrcByte b (s.withFlags d e))
  | crcBuf => exact .inr (buf_finishesAlike s (.inl rfl))
  | lrcBuf => exact .inr (buf_finishesAlike s (.inr rfl))
  | encode => exact .inr (encode_finishesAlike s)
  | decode => exact .inr (decode_finishesAlike s)
  | verify => exact .inr (.intro (exec_verify s) fun d e => exec_verify (s.withFlags d e))
  | sreset => exact absurd rfl hi

/-! ### The statements -/

/-- Settles O52: D and E are false for a command that keeps the flags, and for one that ends with `finish` they are what its code
sets. -/
theorem stickyFlagsAreNeverAnOperand : Obligations.StickyFlagsAreNeverAnOperand := by
  refine ⟨fun i s t hi h => ?_, fun s d e => rfl⟩
  rcases keepsFlags_or_finishesAlike s hi with ⟨u, hu⟩ | ⟨u, c, hu⟩
  · cases h.symm.trans (hu s.regs.status.done s.regs.status.err)
    refine ⟨false, false, (Bool.or_false _).symm, (Bool.or_false _).symm, fun d e => ?_⟩
    rw [Bool.or_false, Bool.or_false]
    exact hu d e
  · cases h.symm.trans (hu s.regs.status.done s.regs.status.err)
    exact ⟨true, decide (2 ≤ c.num.toNat), (Bool.or_true _).symm, rfl,
      fun d e => (hu d e).trans (congrArg _ (u.finish_withFlags c d e))⟩

/-- Settles O5: the decoder rejects the word, and ERR_BADCMD sets ERR. -/
theorem reservedOpcodeReportsBadcmd : Obligations.ReservedOpcodeReportsBadcmd := by
  intro s w rest h hw
  have hd : decode w = .error _ := (decode_of_opcode rfl).trans (decodeOpcode_reserved _ hw)
  rw [step_of_serves_cmd h]
  simp only [issueCommand, hd]
  exact congrArg _ (State.finish_error _ (by decide))

/-- Settles O20: the reset values, and what CTRL, STATUS and `irq` show of them. -/
theorem sresetResetsTheRegisters : Obligations.SresetResetsTheRegisters := by
  refine ⟨exec_sreset, fun s t h => ?_, fun w hw => decode_of_opcode hw⟩
  cases (exec_sreset s).symm.trans h
  rw [State.resetRegs_regs]
  exact ⟨by decide, by decide, rfl, fun _ => rfl, rfl⟩

/-- Settles O22: the meaning of NOP, and the decoder on the low byte 0x00. -/
theorem nopChangesNothing : Obligations.NopChangesNothing :=
  ⟨exec_nop, fun _ hw => decode_of_opcode hw⟩

end Sys2Proof.Machine
end

section
/-! Every step keeps the invariant, part by part: memory, RESULT, the request side and the reply side (spec 10 R35, R38, R39, R45,
R46, 41 R147, R163 to R165). -/

namespace Sys2Proof.Machine

/-! ### The parts of the invariant -/

/-- What the invariant says of memory: canonical form, with bytes at buffer offsets only (R61). -/
structure Memory.InBuffers (m : Memory) : Prop where
  memWf : Memory.wf m
  memInBuffers : ∀ a, (Memory.lookup m a).isSome = true → inBuffer a

/-- What the invariant says of ADULEN and TXBUF (R35, R46). -/
structure State.RequestInv (s : State) : Prop where
  adulenBound : s.regs.adulen = 0 ∨ (4 ≤ s.regs.adulen.toNat ∧ s.regs.adulen.toNat ≤ 513)
  txbufWritten : ∀ k, k < s.regs.adulen.toNat → (s.byteAt (0x800 + k)).isSome = true

/-- What the invariant says of RDLEN, RDATA, EXCREG and the captured reply (R38, R39, R45, R163, R164). -/
structure State.ReplyInv (s : State) : Prop where
  rdlenBound : s.regs.rdlen.toNat ≤ 252
  rdataWritten : ∀ k, k < s.regs.rdlen.toNat → (s.byteAt (0x500 + k)).isSome = true
  excregMasked : s.regs.excreg.fc.getLsbD 7 = false
  excLatched : s.regs.status.exc = true →
    s.regs.rsphdr.fc.getLsbD 7 = true ∧ s.regs.rdlen = 1 ∧ s.regs.excreg.fc = s.regs.rsphdr.fc &&& 0x7F ∧
      s.byteAt 0x500 = some s.regs.excreg.code
  replyLatched : s.regs.status.rspv = true → s.regs.status.exc = false →
    s.regs.rsphdr.fc.getLsbD 7 = false ∧ s.regs.excreg = ExcReg.zero

theorem State.inv_iff {s : State} : s.Inv ↔
    s.mem.InBuffers ∧ (∃ c : Code, s.regs.status.result = c.num) ∧ s.RequestInv ∧ s.ReplyInv := by
  constructor
  · intro h
    exact ⟨⟨h.memWf, h.memInBuffers⟩, h.resultKnown, ⟨h.adulenBound, h.txbufWritten⟩,
      ⟨h.rdlenBound, h.rdataWritten, h.excregMasked, h.excLatched, h.replyLatched⟩⟩
  · rintro ⟨hm, hr, hq, hp⟩
    exact ⟨hm.memWf, hm.memInBuffers, hr, hq.adulenBound, hq.txbufWritten, hp.rdlenBound, hp.rdataWritten, hp.excregMasked,
      hp.excLatched, hp.replyLatched⟩

/-! ### What keeps each part -/

theorem Memory.InBuffers.nil : Memory.InBuffers [] := ⟨List.Pairwise.nil, fun a h => by cases h⟩

/-- A store inside the buffers keeps bytes at buffer offsets only. -/
theorem Memory.InBuffers.storeBytes {m : Memory} (h : m.InBuffers) {base : Nat} {bs : List Byte}
    (hin : ∀ a, base ≤ a → a < base + bs.length → inBuffer a) : (Memory.storeBytes m base bs).InBuffers := by
  refine ⟨Memory.wf_storeBytes h.memWf base bs, fun a ha => ?_⟩
  by_cases hrun : base ≤ a ∧ a < base + bs.length
  · exact hin a hrun.1 hrun.2
  · rw [Memory.lookup_storeBytes, if_neg hrun] at ha
    exact h.memInBuffers a ha

variable {s t : State}

/-- Every byte of a stored run is written. -/
theorem storesOnly.isSome_at {base k : Nat} {bs : List Byte} (h : storesOnly s t base bs) (hk : k < bs.length) :
    (t.byteAt (base + k)).isSome = true := by
  rw [h.at hk, List.getElem?_eq_getElem hk]
  rfl

/-- The request side stays true where ADULEN stays and no written byte becomes unwritten. -/
theorem State.RequestInv.of_adulen_eq (h : s.RequestInv) (ha : t.regs.adulen = s.regs.adulen)
    (hm : ∀ a, (s.byteAt a).isSome = true → (t.byteAt a).isSome = true) : t.RequestInv :=
  ⟨ha ▸ h.adulenBound, fun k hk => hm _ (h.txbufWritten k (ha ▸ hk))⟩

/-- From `s` to `t` the latched reply is the same, and the flags name none that they did not name before. -/
structure KeepsReply (s t : State) : Prop where
  exc : t.regs.status.exc = true → s.regs.status.exc = true
  reply : t.regs.status.rspv = true → t.regs.status.exc = false → s.regs.status.rspv = true ∧ s.regs.status.exc = false
  rsphdr : t.regs.rsphdr = s.regs.rsphdr
  rdlen : t.regs.rdlen = s.regs.rdlen
  excreg : t.regs.excreg = s.regs.excreg

theorem KeepsReply.of_flags_eq (hx : t.regs.status.exc = s.regs.status.exc) (hv : t.regs.status.rspv = s.regs.status.rspv)
    (hh : t.regs.rsphdr = s.regs.rsphdr) (hl : t.regs.rdlen = s.regs.rdlen) (he : t.regs.excreg = s.regs.excreg) :
    KeepsReply s t :=
  ⟨fun h => hx ▸ h, fun h1 h2 => ⟨hv ▸ h1, hx ▸ h2⟩, hh, hl, he⟩

/-- The reply side stays true where the latched reply and RDATA stay the same. -/
theorem State.ReplyInv.of_keepsReply (h : s.ReplyInv) (hk : KeepsReply s t)
    (hm : ∀ a, 0x500 ≤ a → a ≤ 0x5FF → t.byteAt a = s.byteAt a) : t.ReplyInv := by
  have hlen := h.rdlenBound
  constructor
  · rw [hk.rdlen]; exact hlen
  · rw [hk.rdlen]
    intro k hlt
    rw [hm _ (by omega) (by omega)]
    exact h.rdataWritten k hlt
  · rw [hk.excreg]; exact h.excregMasked
  · rw [hk.rsphdr, hk.rdlen, hk.excreg, hm 0x500 (by decide) (by decide)]
    exact fun hx => h.excLatched (hk.exc hx)
  · rw [hk.rsphdr, hk.excreg]
    intro hv hx
    obtain ⟨hv, hx⟩ := hk.reply hv hx
    exact h.replyLatched hv hx

/-- The invariant stays true where RESULT holds a code, nothing is latched and memory stays the same. -/
theorem State.Inv.of_keepsReply (hs : s.Inv) (hr : t.regs.status.result = s.regs.status.result ∨
      ∃ c : Code, t.regs.status.result = c.num) (ha : t.regs.adulen = s.regs.adulen) (hk : KeepsReply s t)
    (hm : t.mem = s.mem) : t.Inv := by
  obtain ⟨hmem, hres, hreq, hrep⟩ := State.inv_iff.mp hs
  have hb := byteAt_eq_of_mem_eq hm
  refine State.inv_iff.mpr ⟨hm ▸ hmem, ?_, hreq.of_adulen_eq ha fun a h => hb a ▸ h, hrep.of_keepsReply hk fun a _ _ => hb a⟩
  exact hr.elim (fun e => e ▸ hres) id

theorem State.Inv.of_regs_eq (hs : s.Inv) (hr : t.regs = s.regs) (hm : t.mem = s.mem) : t.Inv :=
  hs.of_keepsReply (.inl (by rw [hr])) (by rw [hr])
    (.of_flags_eq (by rw [hr]) (by rw [hr]) (by rw [hr]) (by rw [hr]) (by rw [hr])) hm

/-- Registers at their reset values claim nothing of the buffers (R241). -/
theorem State.inv_of_regs_reset (hr : t.regs = Regs.reset) (hm : t.mem.InBuffers) : t.Inv := by
  refine State.inv_iff.mpr ⟨hm, ?_, ?_, ?_⟩
  · exact ⟨.ok, by rw [hr]; rfl⟩
  · constructor <;> rw [hr]
    · exact .inl rfl
    · exact fun k hk => absurd hk (Nat.not_lt_zero k)
  · constructor <;> rw [hr]
    · exact Nat.zero_le _
    · exact fun k hk => absurd hk (Nat.not_lt_zero k)
    · rfl
    · exact fun h => by cases h
    · exact fun h => by cases h

/-! ### Plain writes -/

/-- A plain write reaches no field of the invariant, and an aligned word ends inside the buffer that it starts in. -/
theorem State.Inv.busWrite (hs : s.Inv) {off : Nat} (v : Word) (ha : off % 4 = 0) : (s.busWrite off v).Inv := by
  rcases s.busWrite_cases off v with ⟨r, -, e⟩ | ⟨hr, e⟩ | e <;> rw [e]
  · exact hs.of_keepsReply (.inl (Regs.write_result ..)) (Regs.write_adulen ..)
      (.of_flags_eq (Regs.write_exc ..) (Regs.write_rspv ..) (Regs.write_rsphdr ..) (Regs.write_rdlen ..)
        (Regs.write_excreg ..)) rfl
  · obtain ⟨hmem, hres, hreq, hrep⟩ := State.inv_iff.mp hs
    have hlen : (bytesOfWord v).length = 4 := rfl
    have hst : storesOnly s { s with mem := Memory.storeBytes s.mem off (bytesOfWord v), resp := .written } off
      (bytesOfWord v) := storesOnly_storeBytes _ _ _ _ rfl
    refine State.inv_iff.mpr ⟨hmem.storeBytes fun a h1 h2 => ?_, hres, hreq.of_adulen_eq rfl fun a => hst.isSome,
      hrep.of_keepsReply (.of_flags_eq rfl rfl rfl rfl rfl) fun a h1 h2 => hst.byteAt_of_outside (by omega)⟩
    unfold inBuffer
    omega
  · exact hs.of_regs_eq rfl rfl

/-! ### ENCODE -/

/-- ENCODE that ends in an error clears RSPV, and all it reports is its code (R148). -/
theorem State.Inv.encodeFail (hs : s.Inv) (c : Code) : (s.encodeFail c).Inv :=
  hs.of_keepsReply (.inr ⟨c, rfl⟩) rfl ⟨id, fun h => (by cases h), rfl, rfl, rfl⟩ rfl

/-- A successful ENCODE writes a whole ADU of ADULEN bytes into TXBUF and clears RSPV (R147). -/
theorem encodeDone_inv (hs : s.Inv) (b : Binding) (hl : s.regs.txlen.toNat ≤ 252) : (encodeDone s b).Inv := by
  obtain ⟨hmem, -, -, hrep⟩ := State.inv_iff.mp hs
  have hmin : 4 ≤ (encodedAdu s b).length := le_trans (by cases b <;> decide) (minAdu_le_aduOf_length b _ _ _ _)
  have hmax := encodedAdu_length_le b hl
  have hm : (encodeDone s b).mem = Memory.storeBytes s.mem 0x800 (encodedAdu s b) := by rw [encodeDone_eq]
  have hst := storesOnly_storeBytes s 0x800 (encodedAdu s b) _ hm
  have ha := encodeDone_adulen_toNat b hl
  refine State.inv_iff.mpr ⟨?_, ⟨.ok, rfl⟩, ⟨.inr (by omega), fun k hk => ?_⟩, ?_⟩
  · rw [hm]
    exact hmem.storeBytes fun a h1 h2 => .inr (by omega)
  · exact hst.isSome_at (ha ▸ hk)
  · exact hrep.of_keepsReply ⟨id, fun h => (by cases h), rfl, rfl, rfl⟩ fun a h1 h2 => hst.byteAt_of_outside (by omega)

theorem exec_encode_keeps_inv (hs : s.Inv) (h : exec .encode s = .next t) : t.Inv := by
  rcases execEncode_cases s with ⟨-, e⟩ | ⟨b, -, -, e⟩ | ⟨b, -, hl, e⟩ <;> rw [e] at h <;> cases h
  · exact hs.encodeFail .errConfig
  · exact hs.encodeFail .errTxlen
  · exact encodeDone_inv hs b hl

/-! ### DECODE -/

/-- A DECODE that fails clears RSPV and EXC, so that no reply is latched (R165). -/
theorem State.Inv.decodeFail (hs : s.Inv) (c : Code) : (s.decodeFail c).Inv :=
  hs.of_keepsReply (.inr ⟨c, rfl⟩) rfl ⟨fun h => (by cases h), fun h => (by cases h), rfl, rfl, rfl⟩ rfl

/-- A store of at most MAX_DATA bytes in RDATA stays in the buffers and leaves the request side true (R45). -/
theorem State.Inv.of_rdata_store (hs : s.Inv) {d : List Byte} (hd : d.length ≤ 252)
    (hm : t.mem = Memory.storeBytes s.mem 0x500 d) (hr : ∃ c : Code, t.regs.status.result = c.num)
    (ha : t.regs.adulen = s.regs.adulen) (hrep : t.ReplyInv) : t.Inv := by
  obtain ⟨hmem, -, hreq, -⟩ := State.inv_iff.mp hs
  refine State.inv_iff.mpr ⟨?_, hr, hreq.of_adulen_eq ha fun a => (storesOnly_storeBytes s _ _ t hm).isSome, hrep⟩
  rw [hm]
  exact hmem.storeBytes fun a h1 h2 => .inl (by omega)

/-- `fc & 0x7F` has bit 7 clear (R39). -/
theorem maskFc_bit7 (f : Byte) : (maskFc f).getLsbD 7 = false := by
  simp [maskFc]

/-- A latched exception reply: one byte of RDATA, and the function code without bit 7 in EXCREG (R164). -/
theorem State.Inv.latchException (hs : s.Inv) {fr : Frame} (code : Byte) (hx : isException fr.fc = true) :
    (s.latchException fr code).Inv := by
  have hst : storesOnly s (s.latchException fr code) 0x500 [code] := storesOnly_storeBytes _ _ _ _ rfl
  have hcode : (s.latchException fr code).byteAt 0x500 = some code := hst.at (k := 0) (by simp)
  refine hs.of_rdata_store (d := [code]) (by simp) rfl ⟨.exception, rfl⟩ rfl
    ⟨?_, fun k hk => hst.isSome_at hk, ?_, fun _ => ?_, fun _ h => ?_⟩
  · show (1 : BitVec 9).toNat ≤ 252
    decide
  · exact maskFc_bit7 fr.fc
  · exact ⟨hx, rfl, rfl, hcode⟩
  · cases h

/-- A latched normal reply: its data field, RDLEN bytes long, in RDATA, and EXCREG zero (R163). -/
theorem State.Inv.latchReply (hs : s.Inv) {fr : Frame} {d : List Byte} (hd : d.length ≤ 252) (hx : isException fr.fc = false) :
    (s.latchReply fr d).Inv := by
  have hst : storesOnly s (s.latchReply fr d) 0x500 d := storesOnly_storeBytes _ _ _ _ rfl
  have hlen : (s.latchReply fr d).regs.rdlen.toNat = d.length := Nat.mod_eq_of_lt (by omega)
  refine hs.of_rdata_store hd rfl ⟨.ok, rfl⟩ rfl
    ⟨hlen.trans_le hd, fun k hk => hst.isSome_at (hlen ▸ hk), ?_, fun h => ?_, fun _ _ => ⟨hx, rfl⟩⟩
  · show ExcReg.zero.fc.getLsbD 7 = false
    decide
  · cases h

theorem exec_decode_keeps_inv (hs : s.Inv) (h : exec .decode s = .next t) : t.Inv := by
  have spend (n : Nat) : (s.spend n).Inv := hs.of_regs_eq rfl rfl
  rcases execDecode_shape h with ⟨c, n, rfl⟩ | ⟨b, fr, -, -, hmax, hp, ⟨code, hx, -, rfl⟩ | ⟨hx, rfl⟩⟩
  · exact (spend n).decodeFail c
  · exact (spend _).latchException code hx
  · have hd : fr.data.length ≤ 252 := parseAdu_data_length_le hp (by simpa using hmax)
    exact (spend _).latchReply ((swapIf_length _ _).trans_le hd) hx

/-! ### Every command and every step -/

theorem exec_keeps_inv {i : Instr} (hs : s.Inv) (h : exec i s = .next t) : t.Inv := by
  by_cases he : i = .encode
  · exact exec_encode_keeps_inv hs (he ▸ h)
  by_cases hd : i = .decode
  · exact exec_decode_keeps_inv hs (hd ▸ h)
  by_cases hr : i = .sreset
  · subst hr
    cases h
    exact State.inv_of_regs_reset rfl (State.inv_iff.mp hs).1
  obtain ⟨_, _, r, _, _, _, rfl, hres⟩ := exec_small_frame h he hd hr
  exact hs.of_keepsReply hres rfl (.of_flags_eq rfl rfl rfl rfl rfl) rfl

/-- Settles O57: commands and plain writes keep each part of the invariant, a reset leaves registers that claim nothing of the
buffers, and every other step changes no field of it. -/
theorem everyStepKeepsTheInvariant : Obligations.EveryStepKeepsTheInvariant := by
  intro s t hs h
  have hmem : s.mem.InBuffers := (State.inv_iff.mp hs).1
  cases step_cases h with
  | idle hp ht => exact ht ▸ hs
  | read a rest hw ha ht => exact hs.of_regs_eq (by rw [ht, State.busRead_regs]) (by rw [ht, State.busRead_mem])
  | write a v rest hw ha hc ht =>
    have hs' : State.Inv { s with port := rest } := hs.of_regs_eq rfl rfl
    exact ht ▸ hs'.busWrite v ha
  | command v i rest hw hd ht =>
    have hs' : State.Inv { s with port := rest, resp := .written } := hs.of_regs_eq rfl rfl
    exact exec_keeps_inv hs' ht
  | reserved v x rest hw hd ht =>
    subst ht
    exact hs.of_keepsReply (.inr ⟨.errBadcmd, rfl⟩) rfl (.of_flags_eq rfl rfl rfl rfl rfl) rfl
  | error e rest hw he hm ht => subst ht; exact hs.of_regs_eq rfl rfl
  | resetLow rest hp ht => subst ht; exact State.inv_of_regs_reset rfl hmem
  | resetHigh rest hp ht => subst ht; exact hs.of_regs_eq rfl rfl
  | powerOn rest hp ht => subst ht; exact State.inv_of_regs_reset rfl .nil

end Sys2Proof.Machine
end

section
/-! Steps that complete: the idle step, the events of the reset input, every command, and the accesses that the port serves (spec
60 R210, R220, R227, 20 R66, 70 R241). -/

namespace Sys2Proof.Machine

/-! ### One event at the port -/

variable {s : State} {e : HostEvent} {rest : List HostEvent}

theorem step_of_port_nil (h : s.port = []) : step s = .next s := by
  unfold step serveNext
  rw [h]

theorem step_of_port_cons (h : s.port = e :: rest) : step s = serveEvent e { s with port := rest } := by
  unfold step serveNext
  rw [h]

theorem step_of_powerOn (h : s.port = .powerOn :: rest) : step s = .next (State.powerOn { s with port := rest }) :=
  step_of_port_cons h

theorem step_of_resetLow (h : s.port = .resetLow :: rest) : step s = .next (State.warmReset { s with port := rest }) :=
  step_of_port_cons h

theorem step_of_resetHigh (h : s.port = .resetHigh :: rest) : step s = .next (State.releaseReset { s with port := rest }) :=
  step_of_port_cons h

/-- Every source of a reset gives the registers their reset values (R241). -/
theorem regs_of_resets {t : State} (h : resets s) (ht : step s = .next t) : t.regs = Regs.reset := by
  obtain ⟨rest, hp⟩ | ⟨rest, hp⟩ | ⟨w, rest, hs, hd⟩ := h
  · cases (step_of_powerOn hp).symm.trans ht
    rfl
  · cases (step_of_resetLow hp).symm.trans ht
    rfl
  · cases (stepRunsTheDecodedCommand s w rest .sreset hs hd).symm.trans ht
    rfl

/-! ### Every command completes -/

/-- DECODE of a frame leaves the pins, whichever way it ends (R150). -/
theorem State.decodeFrame_keepsPins (s : State) (b : Binding) (r : List Byte) : keepsPins s (s.decodeFrame b r) := by
  rcases s.decodeFrame_cases b r with ⟨c, -, e⟩ | ⟨fr, -, -, -, e⟩ | ⟨fr, code, -, -, -, e⟩ | ⟨fr, -, -, e⟩ <;> rw [e] <;>
    exact ⟨rfl, rfl, rfl⟩

theorem exec_encode_completes (s : State) : ∃ t, exec .encode s = .next t ∧ keepsPins s t := by
  rcases execEncode_cases s with ⟨-, e⟩ | ⟨b, -, -, e⟩ | ⟨b, -, -, e⟩ <;> exact ⟨_, e, rfl, rfl, rfl⟩

theorem exec_decode_completes (s : State) : ∃ t, exec .decode s = .next t ∧ keepsPins s t := by
  rcases execDecode_cases s with ⟨-, e⟩ | ⟨b, -, -, e⟩ | ⟨b, -, -, e⟩ | ⟨b, -, -, -, e⟩
  · exact ⟨_, e, rfl, rfl, rfl⟩
  · exact ⟨_, e, rfl, rfl, rfl⟩
  · exact ⟨_, e, rfl, rfl, rfl⟩
  · exact ⟨_, e, (s.spend s.regs.rxlen.toNat).decodeFrame_keepsPins b _⟩

/-- Every command answers a next state, whatever the registers hold, and leaves the pins to the port (R210). -/
theorem exec_completes (i : Instr) (s : State) : ∃ t, exec i s = .next t ∧ keepsPins s t := by
  cases i with
  | nop => exact ⟨_, exec_nop s, rfl, rfl, rfl⟩
  | crcInit => exact ⟨_, exec_crcInit s, rfl, rfl, rfl⟩
  | crcByte b => exact ⟨_, exec_crcByte b s, rfl, rfl, rfl⟩
  | crcBuf =>
    rcases Nat.lt_or_ge 1024 s.regs.rxlen.toNat with h | h
    · exact ⟨_, exec_crcBuf_of_long h, rfl, rfl, rfl⟩
    · exact ⟨_, exec_crcBuf_of_le h, rfl, rfl, rfl⟩
  | lrcInit => exact ⟨_, exec_lrcInit s, rfl, rfl, rfl⟩
  | lrcByte b => exact ⟨_, exec_lrcByte b s, rfl, rfl, rfl⟩
  | lrcBuf =>
    rcases Nat.lt_or_ge 1024 s.regs.rxlen.toNat with h | h
    · exact ⟨_, exec_lrcBuf_of_long h, rfl, rfl, rfl⟩
    · exact ⟨_, exec_lrcBuf_of_le h, rfl, rfl, rfl⟩
  | encode => exact exec_encode_completes s
  | decode => exact exec_decode_completes s
  | verify => exact ⟨_, exec_verify s, rfl, rfl, rfl⟩
  | sreset => exact ⟨_, exec_sreset s, rfl, rfl, rfl⟩

/-- A CMD write completes for every word, with a command's opcode or a reserved one (R66, R202). -/
theorem issueCommand_completes (v : Word) (s : State) : ∃ t, issueCommand v s = .next t ∧ t.port = s.port := by
  unfold issueCommand
  cases decode v with
  | ok i =>
    obtain ⟨t, h, -, hp, -⟩ := exec_completes i { s with resp := .written }
    exact ⟨t, h, hp⟩
  | error x => exact ⟨_, rfl, rfl⟩

/-! ### The statements -/

/-- Settles O6: with an empty queue the step serves nothing. -/
theorem idleStepHoldsTheState : Obligations.IdleStepHoldsTheState := fun _ h => step_of_port_nil h

/-- Settles O16: `irq` as the flags, which every reset gives their reset values and which CLRST clears by writing both W1C bits. -/
theorem irqIsTheEnabledFlags : Obligations.IrqIsTheEnabledFlags := by
  refine ⟨fun s => ?_, fun s => ?_, fun s t hr h => ?_, fun s t rest hs h => ?_⟩
  · simp [irq]
  · simp [irqAtLine]
  · unfold irq
    rw [regs_of_resets hr h]
    rfl
  · cases (statusWriteClearsDoneAndErr s 0x00000300 rest hs).symm.trans h
    have hdone : Nat.testBit 0x300 8 = true := by decide
    have herr : Nat.testBit 0x300 9 = true := by decide
    simp [irq, hdone, herr]

/-- Settles O50: each command by its outcomes, and each event of the port by the rule that serves it. -/
theorem everyCommandCompletes : Obligations.EveryCommandCompletes := by
  refine ⟨fun i s => ?_, fun s e rest hs hw => ?_⟩
  · obtain ⟨t, h, hr, hp, ha⟩ := exec_completes i s
    exact ⟨t, h, hp, hr, ha⟩
  cases e with
  | read width a =>
    obtain ⟨rfl, ha⟩ := (wellShaped_iff width a).mp hw
    exact ⟨_, step_of_serves_read hs ha, State.busRead_port ..⟩
  | write width a v =>
    obtain ⟨rfl, ha⟩ := (wellShaped_iff width a).mp hw
    by_cases hc : a = 0x00C
    · subst hc
      rw [step_of_serves_cmd hs]
      exact issueCommand_completes v { s with port := rest }
    · exact ⟨_, step_of_serves_write hs ha hc, State.busWrite_port ..⟩
  | resetLow => exact ⟨_, step_of_resetLow hs.2, rfl⟩
  | resetHigh => exact ⟨_, step_of_resetHigh hs.2, rfl⟩
  | powerOn => exact ⟨_, step_of_powerOn hs.2, rfl⟩

end Sys2Proof.Machine
end

section
/-! The resets: their values, their sources, an access while `rst_n` is low, and what the first commands after one see (spec 70 R241
to R244, 10 R51). -/

namespace Sys2Proof.Machine

/-- The port serves no access, of whatever shape, while `rst_n` is low (R242). -/
theorem step_of_access_in_reset {s : State} {e : HostEvent} {rest : List HostEvent} (hr : s.rstN = false)
    (hp : s.port = e :: rest) (he : e.isAccess = true) : step s = .fault .accessDuringReset := by
  rw [step_of_port_cons hp]
  cases e with
  | read width a => exact if_neg (Bool.eq_false_iff.mp hr)
  | write width a v => exact if_neg (Bool.eq_false_iff.mp hr)
  | resetLow => cases he
  | resetHigh => cases he
  | powerOn => cases he

/-- Settles O7: no access has a step, and the release of the reset has one. -/
theorem accessDuringResetIsStuck : Obligations.AccessDuringResetIsStuck := fun _ _ hr =>
  ⟨fun _ _ hp => step_of_access_in_reset hr hp rfl, fun _ _ _ hp => step_of_access_in_reset hr hp rfl, step_of_resetHigh⟩

/-- Settles O18: the fields as the model defines them, and the words that software reads of them. -/
theorem resetValues : Obligations.ResetValues := by
  refine ⟨rfl, rfl, ?_, ?_, rfl, ?_, rfl, rfl, fun _ => rfl⟩
  · show Ctrl.reset.toWord = 0x00000010
    decide
  · show Status.reset.toWord = 0
    decide
  · show (lrcOfSum 0).setWidth 32 = 0
    decide

/-- Settles O19: each source by the rule of its step or command. -/
theorem resetSources : Obligations.ResetSources := fun s _ =>
  ⟨fun hp => ⟨_, step_of_powerOn hp, rfl, fun _ => rfl, rfl, rfl⟩, step_of_resetLow, exec_sreset s⟩

/-- With no request or no reply captured VERIFY reports COR_NOTREADY (R170). -/
theorem verifyCode_not_captured {g : Regs} (h3 : g.ctrl.binding ≠ 3) (h : g.status.reqv = false ∨ g.status.rspv = false) :
    verifyCode g = .corNotReady :=
  (verifyCode_eq h3).trans (if_pos h)

/-- A successful TCP ENCODE takes the transaction id from TID, into TXBUF and into the capture, and advances TID (R146, R147). -/
theorem exec_encode_tcp_tid {s : State} (hb : s.regs.ctrl.binding = 2) (hl : s.regs.txlen.toNat ≤ 252) :
    ∃ t, exec .encode s = .next t ∧ t.byteAt 0x800 = some (BitVec.ofNat 8 (s.regs.tid.toNat / 256)) ∧
      t.byteAt 0x801 = some (BitVec.ofNat 8 s.regs.tid.toNat) ∧ t.regs.reqcap.tid = s.regs.tid ∧
      t.regs.tid.toNat = (s.regs.tid.toNat + 1) % 65536 := by
  obtain ⟨t, he, -, -, hst, -, htid, hregs⟩ := encodeTcp s hb hl
  exact ⟨t, he, hst.at (k := 0) (by simp), hst.at (k := 1) (by simp), by rw [hregs], htid⟩

/-- Settles O21: no capture is valid after a reset, and the first TCP ENCODE takes the reset value of TID. -/
theorem afterResetNothingIsCaptured : Obligations.AfterResetNothingIsCaptured := by
  intro s hs
  refine ⟨?_, fun c hc => ?_⟩
  · have h3 : s.regs.ctrl.binding ≠ 3 := by rw [hs]; decide
    have hreqv : s.regs.status.reqv = false := by rw [hs]; rfl
    rw [exec_verify, verifyCode_not_captured h3 (.inl hreqv)]
    exact congrArg _ (State.finish_error _ (by decide))
  · rw [hs]
    obtain ⟨t, he, hhi, hlo, hcap, htid⟩ :=
      exec_encode_tcp_tid (s := { s with regs := { Regs.reset with ctrl := c } }) hc (Nat.zero_le _)
    have htid0 : Regs.reset.tid.toNat = 0 := rfl
    exact ⟨t, he, by simpa [htid0] using hhi, by simpa [htid0] using hlo, hcap, BitVec.eq_of_toNat_eq htid⟩

/-- Settles O56: the reset registers claim nothing of the buffers, and REQV is clear. -/
theorem resetMeetsTheInvariant : Obligations.ResetMeetsTheInvariant :=
  ⟨State.inv_of_regs_reset rfl .nil, fun hv => by cases hv⟩

end Sys2Proof.Machine
end

section
/-! Traffic of the served shape: the port takes one access a step and stays out of reset (spec 20 R62, R66, R70, 70 R261). -/

namespace Sys2Proof.Machine

/-- Only the events of the reset input move `rst_n` (R240). -/
theorem rstN_of_access_step {s t : State} {e : HostEvent} {rest : List HostEvent} (hp : s.port = e :: rest)
    (he : e.isAccess = true) (h : step s = .next t) : t.rstN = s.rstN := by
  cases step_cases h with
  | idle _ ht => rw [ht]
  | read a rest' _ _ ht => rw [ht, State.busRead_rstN]
  | write a v rest' _ _ _ ht => rw [ht, State.busWrite_rstN]
  | command v i rest' _ _ ht =>
    obtain ⟨u, hu, hr, -⟩ := exec_completes i { s with port := rest', resp := .written }
    cases hu.symm.trans ht
    exact hr
  | reserved v x rest' _ _ ht => rw [ht, State.finish_rstN]
  | error e' rest' _ _ _ ht => rw [ht, State.errorResponse_rstN]
  | resetLow rest' hq _ => cases hp.symm.trans hq; cases he
  | resetHigh rest' hq _ => cases hp.symm.trans hq; cases he
  | powerOn rest' hq _ => cases hp.symm.trans hq; cases he

/-- An access of the served shape has a step, which takes it off the port and leaves `rst_n` high (R66). -/
theorem step_of_serves_wellShaped {s : State} {e : HostEvent} {rest : List HostEvent} (hs : serves s e rest)
    (he : e.isAccess = true) (hw : e.wellShaped = true) : ∃ t, step s = .next t ∧ t.port = rest ∧ t.rstN = true := by
  obtain ⟨t, ht, hport⟩ := everyCommandCompletes.2 s e rest hs hw
  exact ⟨t, ht, hport, (rstN_of_access_step hs.2 he ht).trans hs.1⟩

/-- Settles O51, by induction on the number of steps: each serves the next access, or holds the state once none is left. -/
theorem servedTrafficRunsToItsEnd : Obligations.ServedTrafficRunsToItsEnd := by
  intro n
  induction n with
  | zero => exact fun s hr _ => ⟨s, runsFor_zero s, rfl, hr⟩
  | succ n ih =>
    intro s hr hserved
    cases hp : s.port with
    | nil =>
      obtain ⟨t, hrun, hport, ht⟩ := ih s hr hserved
      exact ⟨t, runsFor_succ (step_of_port_nil hp) hrun, by rw [hport, hp, List.drop_nil, List.drop_nil], ht⟩
    | cons e rest =>
      obtain ⟨he, hw⟩ := hserved e (by simp [hp])
      obtain ⟨u, hstep, hport, hur⟩ := step_of_serves_wellShaped ⟨hr, hp⟩ he hw
      have hrest : servedTraffic u.port := fun x hx => hserved x (hp ▸ List.mem_cons_of_mem e (hport ▸ hx))
      obtain ⟨t, hrun, hdrop, ht⟩ := ih u hur hrest
      exact ⟨t, runsFor_succ hstep hrun, by rw [hdrop, hport, List.drop_succ_cons], ht⟩

end Sys2Proof.Machine
end

section
/-! DECODE as a function of CTRL and the received frame: it keeps no receive state between commands (spec 70 R257). -/

namespace Sys2Proof.Machine

/-- The two states report the same of a DECODE, and where a reply was accepted they show the same reply. -/
structure SameDecode (t t' : State) : Prop where
  result : t'.regs.status.result = t.regs.status.result
  exc : t'.regs.status.exc = t.regs.status.exc
  rspv : t'.regs.status.rspv = t.regs.status.rspv
  reply : t.regs.status.rspv = true →
    t'.regs.rsphdr = t.regs.rsphdr ∧ t'.regs.rdlen = t.regs.rdlen ∧ t'.regs.excreg = t.regs.excreg ∧
      ∀ k, k < t.regs.rdlen.toNat → t'.byteAt (0x500 + k) = t.byteAt (0x500 + k)

variable {s s' : State}

/-- A run of bytes reads the same in any two states that it was stored in. -/
theorem storesOnly.byteAt_eq {t t' : State} {base k : Nat} {bs : List Byte} (h : storesOnly s t base bs)
    (h' : storesOnly s' t' base bs) (hk : k < bs.length) : t'.byteAt (base + k) = t.byteAt (base + k) :=
  (h'.at hk).trans (h.at hk).symm

theorem SameDecode.decodeFail (s s' : State) (c : Code) : SameDecode (s.decodeFail c) (s'.decodeFail c) :=
  ⟨rfl, rfl, rfl, fun hv => by cases hv⟩

theorem SameDecode.latchException (s s' : State) (fr : Frame) (code : Byte) :
    SameDecode (s.latchException fr code) (s'.latchException fr code) :=
  have stores (u : State) : storesOnly u (u.latchException fr code) 0x500 [code] := storesOnly_storeBytes _ _ _ _ rfl
  ⟨rfl, rfl, rfl, fun _ => ⟨rfl, rfl, rfl, fun _ hk => (stores s).byteAt_eq (stores s') hk⟩⟩

/-- RDLEN is never more than the number of stored bytes. -/
theorem SameDecode.latchReply (s s' : State) (fr : Frame) (d : List Byte) :
    SameDecode (s.latchReply fr d) (s'.latchReply fr d) :=
  have stores (u : State) : storesOnly u (u.latchReply fr d) 0x500 d := storesOnly_storeBytes _ _ _ _ rfl
  have hlen : (s.latchReply fr d).regs.rdlen.toNat ≤ d.length := Nat.mod_le _ _
  ⟨rfl, rfl, rfl, fun _ => ⟨rfl, rfl, rfl, fun _ hk => (stores s).byteAt_eq (stores s') (hk.trans_le hlen)⟩⟩

/-- Of the state a frame's outcome takes CTRL.REFIN only (R150, R160 to R162). -/
theorem SameDecode.decodeFrame (hc : s'.regs.ctrl = s.regs.ctrl) (b : Binding) (r : List Byte) :
    SameDecode (s.decodeFrame b r) (s'.decodeFrame b r) := by
  rcases s.decodeFrame_cases b r with ⟨c, hp, e⟩ | ⟨fr, hp, hx, hl, e⟩ | ⟨fr, code, hp, hx, hd, e⟩ | ⟨fr, hp, hx, e⟩
  · rw [e, s'.decodeFrame_error hp]
    exact .decodeFail s s' c
  · rw [e, s'.decodeFrame_excLen hp hx hl]
    exact .decodeFail s s' .frmExcLen
  · rw [e, s'.decodeFrame_exception hp hx hd]
    exact .latchException s s' fr code
  · rw [e, s'.decodeFrame_reply hp hx, hc]
    exact .latchReply s s' fr _

/-- DECODE takes CTRL, RXLEN and the received bytes, and nothing else of the state (R257). -/
theorem exec_decode_congr {t t' : State} (hc : s'.regs.ctrl = s.regs.ctrl) (hl : s'.regs.rxlen = s.regs.rxlen)
    (hbytes : s'.bufferBytes 0xC00 s.regs.rxlen.toNat = s.bufferBytes 0xC00 s.regs.rxlen.toNat)
    (h : exec .decode s = .next t) (h' : exec .decode s' = .next t') : SameDecode t t' := by
  rcases execDecode_cases s with ⟨h3, e⟩ | ⟨b, hb, hlen, e⟩ | ⟨b, hb, hlen, e⟩ | ⟨b, hb, hmin, hmax, e⟩ <;>
    cases e.symm.trans h
  · cases (exec_decode_reserved (hc ▸ h3)).symm.trans h'
    exact .decodeFail s s' .errConfig
  · cases (exec_decode_short (hc ▸ hb) (hl ▸ hlen)).symm.trans h'
    exact .decodeFail s s' .frmTruncated
  · cases (exec_decode_long (hc ▸ hb) (hl ▸ hlen)).symm.trans h'
    exact .decodeFail s s' .frmTooLong
  · cases (exec_decode_inRange (hc ▸ hb) (hl ▸ hmin) (hl ▸ hmax)).symm.trans h'
    rw [decodeDone, decodeDone, hl, hbytes]
    exact .decodeFrame (s := s.spend _) (s' := s'.spend _) hc b _

/-- Settles O48: written bytes that agree are the same received frame. -/
theorem decodeDependsOnCtrlAndTheFrameAlone : Obligations.DecodeDependsOnCtrlAndTheFrameAlone := by
  intro s s' t t' hc hl hbytes h h'
  obtain ⟨hres, hexc, hrspv, hreply⟩ := exec_decode_congr hc hl (State.bufferBytes_congr hbytes) h h'
  exact ⟨hres, hexc, hrspv, hreply⟩

end Sys2Proof.Machine
end
